-- ==== Sys2Proof/Word.lean ====
section
/-! DEFINITION. The bit-vector widths the spec fixes: bytes and checksums (8 bits), raw samples (16 bits),
command words, read-port words, times and binary32 data (32 bits). Spec: 00_scope.md R4. -/

namespace Sys2Proof

/-- A byte of the receive buffer, a checksum byte, the CRC accumulator (`CRC_W`, R4). -/
abbrev Byte := BitVec 8

/-- A raw sample (`RAW_W`, R4). -/
abbrev Half := BitVec 16

/-- A command word, a read-port word, a time in milliseconds, a binary32 datum (`CMD_W`, `REG_W`, `TIME_W`, R4). -/
abbrev Word := BitVec 32

end Sys2Proof
end

