-- ==== Sys2Proof/Config.lean ====
section
/-! DEFINITION. The parameters of 00_scope.md R4, each at the value the spec gives, and the one OPEN
parameter of the spec, `SEND_STOP`. -/

namespace Sys2Proof.Config

/-- `CRC_POLY`, the nine-bit generator constant (R4, R120). -/
def crcPoly : BitVec 9 := 0x131#9

/-- `CRC_SEED` (R4, R121). -/
def crcSeed : Byte := 0x00#8

/-- `NAN_BITS`, the not-a-number sentinel (R4, R145). -/
def nanBits : Word := 0x7FC00000#32

/-- `RH_MUL`, 125 as binary32 (R142). -/
def rhMul : Word := 0x42FA0000#32

/-- `RH_DIV` and `T_DIV`, 65536 as binary32 (R142). -/
def fullScale : Word := 0x47800000#32

/-- `RH_OFF`, 6 as binary32 (R142). -/
def rhOff : Word := 0x40C00000#32

/-- `RH_MAX`, 100 as binary32 (R142). -/
def rhMax : Word := 0x42C80000#32

/-- `T_MUL`, 175.72 rounded to binary32 (R142). -/
def tMul : Word := 0x432FB852#32

/-- `T_OFF`, 46.85 rounded to binary32 (R142). -/
def tOff : Word := 0x423B6666#32

/-- `NMAX`, the size of `BUF` and the largest byte count of a poll (R4). -/
def nMax : Nat := 8

/-- The least legal byte count of a poll (`N` range, R4). -/
def nMin : Nat := 1

/-- The least legal backoff interval in milliseconds (`B` range, R4). -/
def bMin : Nat := 2

/-- The greatest legal backoff interval in milliseconds (`B` range, R4). -/
def bMax : Nat := 6

/-- `ADDR_DEFAULT`, the reset value of `ADDR` (R4, R27). -/
def addrDefault : BitVec 7 := 0x40#7

/-- `SEND_STOP`, the OPEN parameter of the host's bus writes (48_host_sequences.md R201; 92_eei_decisions.md D22;
93_implementation_defined.md U15): a free value, so no proof can lean on it. Log 16. -/
opaque sendStop : Bool

end Sys2Proof.Config
end

