-- ==== Sys2Proof/Syntax.lean ====
section
/-! DEFINITION. The command set: one constructor per row of spec/opcode_table.json, operands as the unsigned
fields of 30_encoding.md R91 to R97. -/

namespace Sys2Proof

/-- The thirteen commands of 30_encoding.md R98. -/
inductive Instr where
  /-- `NOP` (R190). -/
  | nop
  /-- `CLRF` (R191). -/
  | clrf
  /-- `CFG.ADDR imm7` (R192). -/
  | cfgAddr (imm7 : BitVec 7)
  /-- `CRC.CLR` (R123). -/
  | crcClr
  /-- `CRC.BYTE imm8` (R124). -/
  | crcByte (imm8 : BitVec 8)
  /-- `CRC.BUF off, len` (R125). -/
  | crcBuf (off len : BitVec 4)
  /-- `CRC.VFY off, len` (R126). -/
  | crcVfy (off len : BitVec 4)
  /-- `SMP.SET imm16` (R146). -/
  | smpSet (imm16 : BitVec 16)
  /-- `SMP.LD off` (R147). -/
  | smpLd (off : BitVec 4)
  /-- `SMP.INV` (R148). -/
  | smpInv
  /-- `DEC.RH` (R149). -/
  | decRh
  /-- `DEC.T` (R150). -/
  | decT
  /-- `POLL n, b, t` (R162). -/
  | poll (n : BitVec 4) (b : BitVec 3) (t : BitVec 16)
  deriving DecidableEq, Repr

end Sys2Proof
end

