-- ==== Sys2Proof/WellFormed.lean ====
section
/-! DEFINITION. The operand constraints of 30_encoding.md R98: a command whose operands break one has no legal
word (R99 (c)). -/

namespace Sys2Proof

/-- The operand constraint of the command's row (R98). The legality test reads only the word, never the state (R104). -/
def Instr.wellFormed : Instr → Bool
  | .nop => true
  | .clrf => true
  | .cfgAddr _ => true
  | .crcClr => true
  | .crcByte _ => true
  | .crcBuf off len => decide (off.toNat + len.toNat ≤ 8)
  | .crcVfy off len => decide (1 ≤ len.toNat) && decide (off.toNat + len.toNat ≤ 7)
  | .smpSet _ => true
  | .smpLd off => decide (off.toNat ≤ 6)
  | .smpInv => true
  | .decRh => true
  | .decT => true
  | .poll n b _ =>
    decide (Config.nMin ≤ n.toNat) && decide (n.toNat ≤ Config.nMax) &&
      (decide (Config.bMin ≤ b.toNat) && decide (b.toNat ≤ Config.bMax))

end Sys2Proof
end

