-- ==== Sys2Proof/Decode.lean ====
section
/-! DEFINITION. The decoder and, after it, the encoder, both written from the opcode map of 30_encoding.md R98.
The decoder is total on 32-bit words and rejects by name; every kind of illegal word has the same effect (R99). -/

namespace Sys2Proof

/-- The mnemonics of R98, the name of a row of the opcode map. -/
inductive Opcode where
  | nop | clrf | cfgAddr | crcClr | crcByte | crcBuf | crcVfy | smpSet | smpLd | smpInv | decRh | decT | poll
  deriving DecidableEq, Repr

/-- One row of R98: a word `w` carries the command when `w & mask == pattern` and the operand constraint holds. -/
structure OpcodeRow where
  code : Opcode
  mask : Word
  pattern : Word
  deriving DecidableEq, Repr

/-- The opcode map of R98, in its order. -/
def opcodeMap : List OpcodeRow :=
  [ ⟨.nop,     0xFFFFFFFF#32, 0x00000000#32⟩,
    ⟨.clrf,    0xFFFFFFFF#32, 0x01000000#32⟩,
    ⟨.cfgAddr, 0xFFFFFF80#32, 0x02000000#32⟩,
    ⟨.crcClr,  0xFFFFFFFF#32, 0x10000000#32⟩,
    ⟨.crcByte, 0xFFFFFF00#32, 0x11000000#32⟩,
    ⟨.crcBuf,  0xFFFFFF00#32, 0x12000000#32⟩,
    ⟨.crcVfy,  0xFFFFFF00#32, 0x13000000#32⟩,
    ⟨.smpSet,  0xFFFF0000#32, 0x20000000#32⟩,
    ⟨.smpLd,   0xFFFFFF0F#32, 0x21000000#32⟩,
    ⟨.smpInv,  0xFFFFFFFF#32, 0x22000000#32⟩,
    ⟨.decRh,   0xFFFFFFFF#32, 0x23000000#32⟩,
    ⟨.decT,    0xFFFFFFFF#32, 0x24000000#32⟩,
    ⟨.poll,    0xFF080000#32, 0x30000000#32⟩ ]

/-- The row's fixed bits, opcode and reserved bits together, stand in the word (R98). -/
def rowSelects (r : OpcodeRow) (w : Word) : Bool := w &&& r.mask == r.pattern

/-- The operand fields of a row's word (R91 to R97): unsigned, taken as they stand. -/
def buildInstr (c : Opcode) (w : Word) : Instr :=
  match c with
  | .nop => .nop
  | .clrf => .clrf
  | .cfgAddr => .cfgAddr (w.extractLsb' 0 7)
  | .crcClr => .crcClr
  | .crcByte => .crcByte (w.extractLsb' 0 8)
  | .crcBuf => .crcBuf (w.extractLsb' 4 4) (w.extractLsb' 0 4)
  | .crcVfy => .crcVfy (w.extractLsb' 4 4) (w.extractLsb' 0 4)
  | .smpSet => .smpSet (w.extractLsb' 0 16)
  | .smpLd => .smpLd (w.extractLsb' 4 4)
  | .smpInv => .smpInv
  | .decRh => .decRh
  | .decT => .decT
  | .poll => .poll (w.extractLsb' 20 4) (w.extractLsb' 16 3) (w.extractLsb' 0 16)

/-- Why a word is illegal: the three kinds of R99. -/
inductive Illegal where
  /-- R99 (a): bits 31:24 are none of the thirteen opcodes. -/
  | unassignedOpcode
  /-- R99 (b): a bit the format reserves is 1. -/
  | reservedBit
  /-- R99 (c): the operand constraint fails. -/
  | operandRange
  deriving DecidableEq, Repr

/-- Bits 31:24 are one of the thirteen opcodes (R90, R99 (a)). -/
def opcodeAssigned (w : Word) : Bool :=
  opcodeMap.any (fun r => r.pattern.extractLsb' 24 8 == w.extractLsb' 24 8)

/-- The decoder (R98, R99, R104): the row that matches, its operands, and their constraint. -/
def decode (w : Word) : Except Illegal Instr :=
  match opcodeMap.find? (fun r => rowSelects r w) with
  | some r =>
    if (buildInstr r.code w).wellFormed then .ok (buildInstr r.code w) else .error .operandRange
  | none => if opcodeAssigned w then .error .reservedBit else .error .unassignedOpcode

/-- The host's question: the instruction the decoder reads from a word numbered as the opcode table numbers it.
A command is one 32-bit word handed over in parallel (R90, R61), so there is no byte order to apply. -/
def decodeTableWord (nbits w : Nat) : Option Instr :=
  match decode (BitVec.ofNat 32 (w % 2 ^ nbits)) with
  | .ok i => some i
  | .error _ => none

/-- The encoder (R91 to R96, R98): the row's fixed bits with the operands in their places. -/
def encode (i : Instr) : Word :=
  match i with
  | .nop => 0x00000000#32
  | .clrf => 0x01000000#32
  | .cfgAddr imm7 => 0x02000000#32 ||| imm7.setWidth 32
  | .crcClr => 0x10000000#32
  | .crcByte imm8 => 0x11000000#32 ||| imm8.setWidth 32
  | .crcBuf off len => 0x12000000#32 ||| (off.setWidth 32 <<< 4) ||| len.setWidth 32
  | .crcVfy off len => 0x13000000#32 ||| (off.setWidth 32 <<< 4) ||| len.setWidth 32
  | .smpSet imm16 => 0x20000000#32 ||| imm16.setWidth 32
  | .smpLd off => 0x21000000#32 ||| (off.setWidth 32 <<< 4)
  | .smpInv => 0x22000000#32
  | .decRh => 0x23000000#32
  | .decT => 0x24000000#32
  | .poll n b t =>
    0x30000000#32 ||| (n.setWidth 32 <<< 20) ||| (b.setWidth 32 <<< 16) ||| t.setWidth 32

end Sys2Proof
end

