-- ==== Sys2Proof/Machine/State.lean ====
section
/-! DEFINITION. The machine's state as plain data: the block's seventeen elements (10_state.md R20), and around
them what 10_state.md R39 and 00_scope.md R8 keep out of the block: the time input, the coming inputs, the
transport's history (20_memory.md R76) and the host software of 48_host_sequences.md. -/

namespace Sys2Proof.Machine

/-- The receive buffer's bytes as cells (address, byte), addresses strictly rising, no byte 0x00 listed: an unlisted
address reads 0x00, as 10_state.md R25 and R40 have it. -/
abbrev Memory := List Host.Cell

/-- The control state `PS` of the poll state machine (10_state.md R28). The value 1 is never taken. Log 8. -/
inductive PollState where
  /-- `IDLE` = 0: no poll in progress, commands are accepted. -/
  | idle
  /-- `REQ` = 2: a request is outstanding on the transport port. -/
  | req
  /-- `SLEEP` = 3: waiting out the backoff interval. -/
  | sleep
  deriving DecidableEq, Repr

/-- The block's whole state, seventeen elements and nothing else (10_state.md R20), under the spec's names. -/
structure Block where
  /-- `CRC` (R21). -/
  crc : Byte
  /-- `RAW` (R22). -/
  raw : Half
  /-- `RAWV` (R23). -/
  rawv : Bool
  /-- `RESULT`, a binary32 datum (R24). -/
  result : Word
  /-- `BUF[0..7]` (R25). -/
  buf : Memory
  /-- `BUFCNT` (R26). -/
  bufcnt : BitVec 4
  /-- `ADDR` (R27). -/
  addr : BitVec 7
  /-- `PS` (R28). -/
  ps : PollState
  /-- `PN`, latch of the operand `n` (R29). -/
  pn : BitVec 4
  /-- `PB`, latch of the operand `b` (R29). -/
  pb : BitVec 3
  /-- `PT`, latch of the operand `t` (R29). -/
  pt : BitVec 16
  /-- `T0`, latch of `now` at the `POLL` start (R30). -/
  t0 : Word
  /-- `TS`, latch of `now` at the last failed attempt (R30). -/
  ts : Word
  /-- `POK`, the last poll succeeded (R31). -/
  pok : Bool
  /-- `PTO`, the last poll timed out (R31). -/
  pto : Bool
  /-- `CRCERR`, a verification failed (R32). -/
  crcerr : Bool
  /-- `CMDERR`, an illegal word was accepted since reset (R33). -/
  cmderr : Bool
  deriving DecidableEq, Repr

/-- The block right after the `reset` event (10_state.md R40). -/
def Block.reset : Block where
  crc := 0x00#8
  raw := 0x0000#16
  rawv := false
  result := 0x7FC00000#32
  buf := []
  bufcnt := 0#4
  addr := Config.addrDefault
  ps := .idle
  pn := 0#4
  pb := 0#3
  pt := 0#16
  t0 := 0x00000000#32
  ts := 0x00000000#32
  pok := false
  pto := false
  crcerr := false
  cmderr := false

/-- One entry of the transport port's observable history (20_memory.md R76). -/
inductive TransportEvent where
  /-- `emit request(a, n)`: `tr_req_valid = 1` once, with `tr_req_addr` and `tr_req_count` (R65). -/
  | request (addr : BitVec 7) (count : BitVec 4)
  /-- The event `respond(cnt, d)` (R65). -/
  | response (cnt : BitVec 4) (d : BitVec 64)
  deriving DecidableEq, Repr

/-- The input pins at one instant (20_memory.md R61, R62, R65; 70_reset_and_hazards.md R260). -/
structure Pins where
  /-- `rst`. -/
  rst : Bool
  /-- `cmd_valid`. -/
  cmdValid : Bool
  /-- `cmd_word`. -/
  cmdWord : Word
  /-- `rd_sel`. -/
  rdSel : BitVec 4
  /-- `tr_rsp_valid`. -/
  rspValid : Bool
  /-- `tr_rsp_count`. -/
  rspCount : BitVec 4
  /-- `tr_rsp_data`, the byte `d[0]` in bits 63:56. -/
  rspData : BitVec 64
  deriving DecidableEq, Repr

/-- The six events of the step model (00_scope.md R7). -/
inductive Event where
  /-- The block accepts the command word `w`. -/
  | accept (w : Word)
  /-- The host reads register number `k`. -/
  | read (k : BitVec 4)
  /-- The poll state machine leaves `SLEEP`. -/
  | wake
  /-- The transport answers the outstanding request. -/
  | respond (cnt : BitVec 4) (d : BitVec 64)
  /-- `now_ms` advances by one millisecond. -/
  | tick
  /-- The reset input is asserted. -/
  | reset
  deriving DecidableEq, Repr

/-- `ModelClassification`, six names without codes (48_host_sequences.md R204; 91_not_in_source.md N20). -/
inductive ModelClass where
  | engineeringSample | model7013 | model7020 | model7021 | compatibleSHT25 | unknown
  deriving DecidableEq, Repr

/-- The DeviceSession fields the host holds (48_host_sequences.md R204). A field "immutable once populated" or "set once"
has beside it whether it has been populated, since any value can be read from a device. Log 27. -/
structure Session where
  /-- `SerialNumber.high`. -/
  serialHigh : Word
  /-- `SerialNumber.high` has been populated. -/
  serialHighPopulated : Bool
  /-- `SerialNumber.low`. -/
  serialLow : Word
  /-- `SerialNumber.low` has been populated. -/
  serialLowPopulated : Bool
  /-- `ModelClassification`. -/
  model : ModelClass
  /-- `ModelClassification` has been set. -/
  modelPopulated : Bool
  /-- `FirmwareRevision`. -/
  firmware : Byte
  deriving DecidableEq, Repr

/-- The operations of the Device Facade and the Identification Resolver (48_host_sequences.md R206 to R216, R219). -/
inductive FacadeCall where
  /-- `sendCommand(x0)` (R206). -/
  | sendCommand1 (x0 : Byte)
  /-- `sendCommand(x0, x1)` (R206). -/
  | sendCommand2 (x0 x1 : Byte)
  /-- `reset()`, the sensor's reset (R207). -/
  | sensorReset
  /-- `readUserRegister1()` (R219). -/
  | readUserRegister1
  /-- `initialize()` (R208). -/
  | initialise
  /-- `readHumidity()` (R209). -/
  | readHumidity
  /-- `readTemperature()` (R210). -/
  | readTemperature
  /-- `resolve()` (R211 to R214). -/
  | resolve
  /-- `readFirmwareRevision()` (R215). -/
  | readFirmwareRevision
  /-- `readSerialNumber()` (R216). -/
  | readSerialNumber
  /-- `getModel()` (R216). -/
  | getModel
  deriving DecidableEq, Repr

/-- The places a host sequence goes on from when a test fails; every jump is forward. -/
inductive HostLabel where
  | nak | decode | failed | resetNak | resetAcked | resolved | noRevision | revisionDone
  deriving DecidableEq, Repr

/-- What a host sequence hands back to its caller. -/
inductive HostReturn where
  /-- A Boolean. -/
  | bool (b : Bool)
  /-- `(true, blk.BUFA[31:24])` (R219). -/
  | userRegister
  /-- `(false, 0)` (R219). -/
  | noUserRegister
  /-- `blk.RESULT` (R209). -/
  | reading
  /-- `FirmwareRevision` (R215). -/
  | firmware
  /-- `ModelClassification` (R216). -/
  | model
  /-- No value: `resolve()` (R211 to R214), and `readSerialNumber()`, of which the spec says only that it runs `resolve()`
  (R216); that it hands back nothing is the model's choice. Log 25. -/
  | done
  deriving DecidableEq, Repr

/-- The actions host sequences are made of (48_host_sequences.md, "Notation of the sequences"). -/
inductive HostAction where
  /-- `tr.begin(blk.ADDR)`, `tr.write` of each byte, `tr.end(SEND_STOP)` (R206). -/
  | send (bytes : List Byte) (onNak : HostLabel)
  /-- The bus write is made and its status is awaited (R201). -/
  | awaitStatus (onNak : HostLabel)
  /-- `host.sleep(ms)` (R203). -/
  | sleep (ms : Word)
  /-- A `host.sleep(ms)` that began at the time `since`. -/
  | sleepFrom (since ms : Word)
  /-- `blk(CMD ...)`: present the command until it is accepted. -/
  | blk (i : Instr)
  /-- Go on only if `blk.STATUS.POK == 1`. -/
  | needPok (otherwise : HostLabel)
  /-- Go on only if `blk.STATUS.CRCERR == 0`. -/
  | needGoodCrc (otherwise : HostLabel)
  /-- Go on only if `blk.BUFA[31:24]` is the value (R208). -/
  | needUserRegister (v : Byte) (otherwise : HostLabel)
  /-- `SerialNumber.high <- BUF[0] ‖ BUF[2] ‖ BUF[4] ‖ BUF[6]` (R211), once (R204). -/
  | setSerialHigh
  /-- `SerialNumber.low <- BUF[0] ‖ BUF[1] ‖ BUF[3] ‖ BUF[4]` (R212), once (R204). -/
  | setSerialLow
  /-- `ModelClassification <- classify(SerialNumber.low[31:24])` (R213), once (R204). -/
  | classifyModel
  /-- `FirmwareRevision` from the byte `BUF[0]` (R215). -/
  | setFirmware
  /-- `FirmwareRevision <- 0` (R215). -/
  | clearFirmware
  /-- Go on at the label. -/
  | goto (l : HostLabel)
  /-- A place to go on from; no action. -/
  | label (l : HostLabel)
  /-- Return to the caller. -/
  | ret (r : HostReturn)
  deriving DecidableEq, Repr

/-- What the last host sequence returned. -/
inductive HostResult where
  /-- Nothing has returned yet. -/
  | none
  | bool (b : Bool)
  | userRegister (ok : Bool) (value : Byte)
  | reading (bits : Word)
  | firmware (r : Byte)
  | model (m : ModelClass)
  | done
  deriving DecidableEq, Repr

/-- One bus write on the transport's write half (48_host_sequences.md R201). -/
structure BusWrite where
  addr : BitVec 7
  bytes : List Byte
  stop : Bool
  deriving DecidableEq, Repr

/-- The host software: its data (R204), what is left of the sequence it runs, what the last one returned, and the bus
writes it has made, oldest first. -/
structure HostAgent where
  session : Session
  code : List HostAction
  result : HostResult
  writes : List BusWrite
  deriving DecidableEq, Repr

/-- The host before any call (48_host_sequences.md R204). Log 19. -/
def HostAgent.start : HostAgent where
  session := {
    serialHigh := 0#32
    serialHighPopulated := false
    serialLow := 0#32
    serialLowPopulated := false
    model := .unknown
    modelPopulated := false
    firmware := 0#8 }
  code := []
  result := .none
  writes := []

/-- What the machine's environment may do next. Which comes when is open (00_scope.md R7, R8); the list of them in
`State` says it, and statements quantify over that list. Log 2. -/
inductive Input where
  /-- One instant of the input pins. -/
  | pins (p : Pins)
  /-- The instant the block leaves `SLEEP`, if the backoff has elapsed (43_poll.md R165). -/
  | wake
  /-- The clock advances by one millisecond (20_memory.md R66). -/
  | tick
  /-- The embedding application calls a host sequence. -/
  | call (c : FacadeCall)
  /-- The host software takes its next action. -/
  | host
  /-- `endTransaction` answers with a status, 0 for success (48_host_sequences.md R201). -/
  | writeStatus (status : Nat)
  deriving DecidableEq, Repr

/-- The machine. -/
structure State where
  /-- The block (10_state.md R20). -/
  block : Block
  /-- `now_ms` (20_memory.md R66). -/
  now : Word
  /-- The level of the input `rst`: asserted from the instant of the pins that raises it until the one that releases it
  (70_reset_and_hazards.md R260). Log 10. -/
  rst : Bool
  /-- The coming inputs, the next one first (00_scope.md R8). The model's own field. -/
  inputs : List Input
  /-- What the transport port has seen, oldest first (20_memory.md R76). -/
  history : List TransportEvent
  /-- The host software (48_host_sequences.md). -/
  host : HostAgent
  deriving DecidableEq, Repr

/-- The machine right after reset with nothing placed: the block as 10_state.md R40 says, no input pending, nothing
emitted, the host's data at its initial values; `rst` has been released (log 10). The time 0 is the model's choice, the
spec leaves it open (log 3). -/
def State.reset : State where
  block := Block.reset
  now := 0#32
  rst := false
  inputs := []
  history := []
  host := HostAgent.start

/-- The block raises no exception and never stops (60_exceptions.md R230, R238), so there is no fault to name:
raised by nothing, and safe. -/
inductive Fault where
  deriving DecidableEq, Repr

/-- Why a step has no meaning. -/
inductive Refusal where
  /-- Raised by `exec` alone, in the arm of a command that has no meaning yet (none is left). Safe: nothing is
  claimed of a run that stops so. -/
  | notModelled (mnemonic : String)
  deriving DecidableEq, Repr

/-- The outcome of a step of this machine. -/
abbrev Outcome := Host.Outcome State Fault Refusal

end Sys2Proof.Machine
end

