-- ==== Sys2Proof/Machine/Ops.lean ====
section
/-! DEFINITION. The shared operations: the receive buffer read and written one byte at a time (20_memory.md R63,
R67), the block's registers, the transport port (R65), and the one thing the block does about a failure of the
command decoder, which stands where other machines take an exception (60_exceptions.md R230, R238). -/

namespace Sys2Proof.Machine

/-- What a buffer address that no cell lists reads as: 0x00 (10_state.md R25, R40). -/
def Memory.unlisted : Byte := 0x00#8

/-- `BUF[a]`. -/
def Memory.read : Memory → Nat → Byte
  | [], _ => Memory.unlisted
  | (k, b) :: m, a => if k = a then b else Memory.read m a

/-- `BUF[a] <- v`, keeping the canonical form. -/
def Memory.write : Memory → Nat → Byte → Memory
  | [], a, v => if v = Memory.unlisted then [] else [(a, v)]
  | (k, b) :: m, a, v =>
    if a < k then (if v = Memory.unlisted then (k, b) :: m else (a, v) :: (k, b) :: m)
    else if a = k then (if v = Memory.unlisted then m else (a, v) :: m)
    else (k, b) :: Memory.write m a v

/-- The canonical form: addresses strictly rising, all of them in `BUF[0..7]` (R60), no byte listed that an unlisted
address reads as. -/
abbrev Memory.wf (m : Memory) : Prop :=
  m.Pairwise (fun c c' => c.1 < c'.1) ∧ ∀ c ∈ m, c.1 < 8 ∧ c.2 ≠ Memory.unlisted

/-- The bytes `BUF[a], BUF[a+1], ..., BUF[a+n-1]` (20_memory.md R63). -/
def readBytes (m : Memory) (a n : Nat) : List Byte :=
  (List.range n).map (fun i => Memory.read m (a + i))

/-- `MemRead(a, 2)`: the first byte most significant (00_scope.md R6; 20_memory.md R67). -/
def readHalf (m : Memory) (a : Nat) : Half := Memory.read m a ++ Memory.read m (a + 1)

/-- `MemRead(a, 4)`: the first byte most significant (00_scope.md R6; 20_memory.md R67, R68). -/
def readWord (m : Memory) (a : Nat) : Word :=
  Memory.read m a ++ Memory.read m (a + 1) ++ Memory.read m (a + 2) ++ Memory.read m (a + 3)

/-- `MemWrite(a, n, v)` on the bytes of `v`, the first byte at `a` (00_scope.md R6). -/
def writeBytes : Memory → Nat → List Byte → Memory
  | m, _, [] => m
  | m, a, v :: vs => writeBytes (Memory.write m a v) (a + 1) vs

/-- The byte `d[i] = tr_rsp_data[63-8i : 56-8i]` of a response (20_memory.md R65). -/
def responseByte (d : BitVec 64) (i : Nat) : Byte := d.extractLsb' (56 - 8 * i) 8

/-- The bytes `d[0..n-1]` of a response (20_memory.md R65). -/
def responseBytes (d : BitVec 64) (n : Nat) : List Byte := (List.range n).map (responseByte d)

/-- A change of the block alone. -/
def onBlock (f : Block → Block) (s : State) : State := { s with block := f s.block }

/-- One more entry of the transport port's history (20_memory.md R76). -/
def record (e : TransportEvent) (s : State) : State := { s with history := s.history ++ [e] }

/-- `emit request(ADDR, n)` (00_scope.md R6; 20_memory.md R65). -/
def emitRequest (n : BitVec 4) (s : State) : State := record (.request s.block.addr n) s

/-- `cmd_ready`: exactly when `PS == IDLE` (20_memory.md R61). -/
def cmdReady (b : Block) : Bool := decide (b.ps = .idle)

/-- `BUSY`, the derived bit `PS != IDLE` (10_state.md R34). -/
def busy (b : Block) : Bool := !cmdReady b

/-- Accepting an illegal word: `CMDERR <- 1` and no other change (30_encoding.md R100; 60_exceptions.md R235). It is all
the block does about a failure of decoding: nothing is saved, no mode changes, control goes nowhere (R238). -/
def illegalCommand (s : State) : State := onBlock (fun b => { b with cmderr := true }) s

/-- The effect `f` of a command whose operands are legal; operands out of range make the word illegal
(30_encoding.md R99 (c), R100). The decoder never lets such operands through. Log 5. -/
def whenLegal (i : Instr) (f : State → State) (s : State) : Outcome :=
  .next (if i.wellFormed then f s else illegalCommand s)

/-- The `reset` event: every element of the block at its reset value (70_reset_and_hazards.md R260; 10_state.md R40).
It emits nothing; time, the history and the host's data are not the block's. Log 4. -/
def resetBlock (s : State) : State := { s with block := Block.reset }

/-- The `tick` event (20_memory.md R66). -/
def tickClock (s : State) : State := { s with now := s.now + 1#32 }

end Sys2Proof.Machine
end

