-- ==== Sys2Proof/Machine/Operands.lean ====
section
/-! DEFINITION. The operand forms of the commands: offsets and lengths into the receive buffer (30_encoding.md R94,
R95, R97), the groups of `CRC.VFY`, the two sample bytes, and the elapsed times of the poll (43_poll.md R169). -/

namespace Sys2Proof.Machine

/-- The data bytes `BUF[off..off+len-1]` that `CRC.BUF` and `CRC.VFY` name (41_crc.md R125, R126). -/
def dataBytes (b : Block) (off len : BitVec 4) : List Byte := readBytes b.buf off.toNat len.toNat

/-- The checksum byte `BUF[off+len]` of a group (41_crc.md R126). -/
def checksumByte (b : Block) (off len : BitVec 4) : Byte := Memory.read b.buf (off.toNat + len.toNat)

/-- Every byte of the group, its checksum byte among them, came from the device: `off + len + 1 <= BUFCNT` (R126). -/
def groupReceived (b : Block) (off len : BitVec 4) : Bool :=
  decide (off.toNat + len.toNat + 1 ≤ b.bufcnt.toNat)

/-- The raw sample `BUF[off] ‖ BUF[off+1]` (42_decode.md R147). -/
def sampleAt (b : Block) (off : BitVec 4) : Half := readHalf b.buf off.toNat

/-- Both sample bytes came from the device: `off + 2 <= BUFCNT` (R147). -/
def sampleReceived (b : Block) (off : BitVec 4) : Bool := decide (off.toNat + 2 ≤ b.bufcnt.toNat)

/-- Elapsed time `(now - latch) mod 2^32` (43_poll.md R169). -/
def elapsed (now latch : Word) : Word := now - latch

/-- The guard of `wake`: `PS == SLEEP` and `(now - TS) mod 2^32 >= PB` (43_poll.md R165). -/
def wakeEnabled (now : Word) (b : Block) : Bool :=
  decide (b.ps = .sleep) && decide (b.pb.toNat ≤ (elapsed now b.ts).toNat)

/-- The elapsed time exceeds the timeout, strictly: `(now - T0) mod 2^32 > PT` (43_poll.md R167). -/
def deadlinePassed (now : Word) (b : Block) : Bool :=
  decide (b.pt.toNat < (elapsed now b.t0).toNat)

end Sys2Proof.Machine
end

