-- ==== Sys2Proof/Machine/Flags.lean ====
section
/-! DEFINITION. Flag computations: `RAWV` and `CRCERR` (10_state.md R23, R32), the flags a `POLL` start and `CLRF`
clear (R31), and the packed read-only registers `STATUS` and `POLLCFG` (R35, R36). -/

namespace Sys2Proof.Machine

/-- The two bits of `PS` (10_state.md R28). -/
def pollStateBits : PollState → BitVec 2
  | .idle => 0#2
  | .req => 2#2
  | .sleep => 3#2

/-- What `SMP.LD` writes into `RAWV`: the bytes were received and no verification has failed (42_decode.md R147). -/
def loadedValid (b : Block) (off : BitVec 4) : Bool := sampleReceived b off && !b.crcerr

/-- The flags of a group that does not verify: `CRCERR <- 1`, `RAWV <- 0`; one that verifies changes no flag
(41_crc.md R126, R127). -/
def flagVerification (ok : Bool) (b : Block) : Block :=
  if ok then b else { b with crcerr := true, rawv := false }

/-- `CLRF`: `POK`, `PTO`, `CRCERR` <- 0 (44_system.md R191). -/
def clearFlags (b : Block) : Block := { b with pok := false, pto := false, crcerr := false }

/-- What a `POLL` start clears: the buffer and its count, `POK`, `PTO`, `RAWV`, `CRCERR` (43_poll.md R162). -/
def clearTransaction (b : Block) : Block :=
  { b with buf := [], bufcnt := 0#4, pok := false, pto := false, rawv := false, crcerr := false }

/-- The register `STATUS` (10_state.md R35). -/
def statusWord (b : Block) : Word :=
  0#18 ++ pollStateBits b.ps ++ b.bufcnt ++ 0#2 ++ BitVec.ofBool b.cmderr ++ BitVec.ofBool b.crcerr ++
    BitVec.ofBool b.rawv ++ BitVec.ofBool b.pto ++ BitVec.ofBool b.pok ++ BitVec.ofBool (busy b)

/-- The register `POLLCFG` (10_state.md R36). -/
def pollcfgWord (b : Block) : Word := 0#8 ++ b.pn ++ 0#1 ++ b.pb ++ b.pt

end Sys2Proof.Machine
end

