-- ==== Sys2Proof/Machine/Crc.lean ====
section
/-! DEFINITION. The CRC-8 validator (41_crc.md): the byte step and the sequence function of R120 and R121, and the
commands `CRC.CLR`, `CRC.BYTE`, `CRC.BUF`, `CRC.VFY` (R123 to R126). -/

namespace Sys2Proof.Machine

/-- One of the eight rounds of R120: the top bit is tested before the shift; the nine-bit intermediate is truncated. -/
def crcRound (a : Byte) : Byte :=
  if a.getLsbD 7 then (((a.setWidth 9) <<< 1) ^^^ Config.crcPoly).setWidth 8
  else ((a.setWidth 9) <<< 1).setWidth 8

/-- `n` rounds. -/
def crcRounds : Nat → Byte → Byte
  | 0, a => a
  | n + 1, a => crcRounds n (crcRound a)

/-- `crc8_step(acc, b)` (R120). -/
def crc8Step (acc b : Byte) : Byte := crcRounds 8 (acc ^^^ b)

/-- The accumulator after more bytes, in increasing order (R121, R124). -/
def crc8Feed (acc : Byte) (bytes : List Byte) : Byte := bytes.foldl crc8Step acc

/-- `compute(bytes, count)` (R121). -/
def crc8Compute (bytes : List Byte) : Byte := crc8Feed Config.crcSeed bytes

/-- The condition `ok` of `CRC.VFY` (R126): the whole group was received and the computed checksum is the group's. -/
def groupVerifies (b : Block) (off len : BitVec 4) : Bool :=
  groupReceived b off len && decide (crc8Compute (dataBytes b off len) = checksumByte b off len)

/-- `CRC.CLR` (R123). -/
def execCrcClr (s : State) : Outcome := .next (onBlock (fun b => { b with crc := 0x00#8 }) s)

/-- `CRC.BYTE imm8` (R124). -/
def execCrcByte (imm8 : BitVec 8) (s : State) : Outcome :=
  .next (onBlock (fun b => { b with crc := crc8Step b.crc imm8 }) s)

/-- `CRC.BUF off, len` (R125): the accumulator is re-seeded; `BUFCNT` is not looked at. -/
def execCrcBuf (off len : BitVec 4) (s : State) : Outcome :=
  whenLegal (.crcBuf off len) (onBlock fun b => { b with crc := crc8Compute (dataBytes b off len) }) s

/-- `CRC.VFY off, len` (R126): `CRC` holds the computed value whether or not the group verifies. -/
def execCrcVfy (off len : BitVec 4) (s : State) : Outcome :=
  whenLegal (.crcVfy off len)
    (onBlock fun b =>
      flagVerification (groupVerifies b off len) { b with crc := crc8Compute (dataBytes b off len) }) s

end Sys2Proof.Machine
end

