-- ==== Sys2Proof/Machine/Binary32.lean ====
section
/-! DEFINITION. IEEE 754 binary32 as 42_decode.md R141 has it: every arithmetic step is the exact result rounded once,
round to nearest, ties to the even significand. Exact results are fractions of integers. -/

namespace Sys2Proof.Machine

/-- An exact rational number `num / den`; `den` is positive wherever the decoder makes one. Not reduced. -/
structure Frac where
  num : Int
  den : Nat
  deriving DecidableEq, Repr

/-- The exact product. -/
def fracMul (x y : Frac) : Frac := ⟨x.num * y.num, x.den * y.den⟩

/-- The exact difference. -/
def fracSub (x y : Frac) : Frac := ⟨x.num * y.den - y.num * x.den, x.den * y.den⟩

/-- The exact quotient by a positive number. -/
def fracDiv (x y : Frac) : Frac := ⟨x.num * y.den, x.den * y.num.toNat⟩

/-- `x < y`. -/
def fracLt (x y : Frac) : Bool := decide (x.num * y.den < y.num * x.den)

/-- The value of a finite datum: bit 31 sign, bits 30:23 the exponent biased by 127, bits 22:0 the fraction (00_scope.md
R5); an exponent field 0 is zero or a subnormal. -/
def f32Value (v : Word) : Frac :=
  let e := (v.extractLsb' 23 8).toNat
  let f := (v.extractLsb' 0 23).toNat
  let m := if e = 0 then f else 2 ^ 23 + f
  let e' := if e = 0 then 1 else e
  let sm : Int := if v.getLsbD 31 then -(m : Int) else m
  if 150 ≤ e' then ⟨sm * 2 ^ (e' - 150), 1⟩ else ⟨sm, 2 ^ (150 - e')⟩

/-- The integer `e` with `2^e <= a / d < 2^(e+1)`, for positive `a` and `d` (R141). -/
def floorLog2 (a d : Nat) : Int :=
  if Nat.log2 d ≤ Nat.log2 a then
    let k := Nat.log2 a - Nat.log2 d
    if d * 2 ^ k ≤ a then k else (k : Int) - 1
  else
    let k := Nat.log2 d - Nat.log2 a
    if d ≤ a * 2 ^ k then -(k : Int) else -(k : Int) - 1

/-- `a / d` rounded to the nearest integer; exactly halfway, the even one (R141). -/
def roundHalfEven (a d : Nat) : Nat :=
  if d < 2 * (a % d) ∨ (2 * (a % d) = d ∧ (a / d) % 2 = 1) then a / d + 1 else a / d

/-- `M`, the significand of R141 before it is renormalised: `(a / d) / 2^(e-23)` rounded. -/
def significand (a d : Nat) (e : Int) : Nat :=
  if e ≤ 23 then roundHalfEven (a * 2 ^ (23 - e).toNat) d else roundHalfEven a (d * 2 ^ (e - 23).toNat)

/-- `f32(q)`, the bits of the binary32 value nearest `q` (42_decode.md R141). The spec gives it for 0 and for the normal
range, which is all the decoder needs (R151). Log 9. -/
def f32 (q : Frac) : Word :=
  if q.num = 0 then 0x00000000#32
  else
    let e := floorLog2 q.num.natAbs q.den
    let m := significand q.num.natAbs q.den e
    let m' := if m = 2 ^ 24 then 2 ^ 23 else m
    let e' := if m = 2 ^ 24 then e + 1 else e
    BitVec.ofBool (decide (q.num < 0)) ++ BitVec.ofInt 8 (e' + 127) ++ BitVec.ofNat 23 (m' - 2 ^ 23)

/-- An unsigned integer as binary32, exact below `2^24` (R141). -/
def f32OfNat (n : Nat) : Word := f32 ⟨n, 1⟩

/-- Multiplication in binary32. -/
def f32Mul (x y : Word) : Word := f32 (fracMul (f32Value x) (f32Value y))

/-- Division in binary32 by a positive datum. -/
def f32Div (x y : Word) : Word := f32 (fracDiv (f32Value x) (f32Value y))

/-- Subtraction in binary32. -/
def f32Sub (x y : Word) : Word := f32 (fracSub (f32Value x) (f32Value y))

/-- The binary32 comparison `x < y` of finite data. -/
def f32Lt (x y : Word) : Bool := fracLt (f32Value x) (f32Value y)

end Sys2Proof.Machine
end

