-- ==== Sys2Proof/Machine/Decoder.lean ====
section
/-! DEFINITION. The measurement decoder (42_decode.md): the two formulas of R143 and R144 in binary32, left to right as
written, and the commands `DEC.RH` and `DEC.T` (R149, R150). -/

namespace Sys2Proof.Machine

/-- `decodeHumidity(raw)` (R143): clamped at 100.0 above, no lower clamp. -/
def decodeHumidity (raw : Half) : Word :=
  let h0 := f32OfNat raw.toNat
  let h1 := f32Mul h0 Config.rhMul
  let h2 := f32Div h1 Config.fullScale
  let h3 := f32Sub h2 Config.rhOff
  if f32Lt Config.rhMax h3 then Config.rhMax else h3

/-- `decodeTemperature(raw)` (R144): no clamp. -/
def decodeTemperature (raw : Half) : Word :=
  let t0 := f32OfNat raw.toNat
  let t1 := f32Mul t0 Config.tMul
  let t2 := f32Div t1 Config.fullScale
  f32Sub t2 Config.tOff

/-- What a decode command leaves in `RESULT`: the formula's value of a valid sample, the not-a-number sentinel of an
invalid one, which evaluates no formula (R145, R152). -/
def decodedOr (formula : Half → Word) (b : Block) : Word :=
  if b.rawv then formula b.raw else Config.nanBits

/-- `DEC.RH` (R149): `RAW` and `RAWV` are unchanged. -/
def execDecRh (s : State) : Outcome :=
  .next (onBlock (fun b => { b with result := decodedOr decodeHumidity b }) s)

/-- `DEC.T` (R150): `RAW` and `RAWV` are unchanged. -/
def execDecT (s : State) : Outcome :=
  .next (onBlock (fun b => { b with result := decodedOr decodeTemperature b }) s)

end Sys2Proof.Machine
end

