-- ==== Sys2Proof/Machine/Poll.lean ====
section
/-! DEFINITION. The timeout-polling state machine (43_poll.md): the `POLL` start (R162), the successful and the failed
attempt (R163, R164), and `wake`, which retries or times out (R165 to R167). -/

namespace Sys2Proof.Machine

/-- The latches of a `POLL` start and the state it enters (R162). -/
def startPoll (n : BitVec 4) (b : BitVec 3) (t : BitVec 16) (now : Word) (k : Block) : Block :=
  { clearTransaction k with pn := n, pb := b, pt := t, t0 := now, ps := .req }

/-- `POLL n, b, t` (R162): the first request is emitted at once, without a deadline test. That a poll in progress
accepts no command is the command port's guard (20_memory.md R61). Log 6. -/
def execPoll (n : BitVec 4) (b : BitVec 3) (t : BitVec 16) (s : State) : Outcome :=
  whenLegal (.poll n b t) (fun s => onBlock (startPoll n b t s.now) (emitRequest n s)) s

/-- A successful attempt: exactly `PN` bytes came, whenever they came (R163). -/
def attemptSucceeds (d : BitVec 64) (b : Block) : Block :=
  { b with buf := writeBytes b.buf 0 (responseBytes d b.pn.toNat), bufcnt := b.pn, pok := true, ps := .idle }

/-- A failed attempt: any other count; its bytes are dropped (R164). -/
def attemptFails (now : Word) (b : Block) : Block := { b with ts := now, ps := .sleep }

/-- The event `respond(cnt, d)`. Outside `REQ` a response is ignored (20_memory.md R65). -/
def pollRespond (cnt : BitVec 4) (d : BitVec 64) (s : State) : State :=
  if s.block.ps = .req then
    onBlock (fun b => if cnt = b.pn then attemptSucceeds d b else attemptFails s.now b)
      (record (.response cnt d) s)
  else s

/-- The event `wake`: not enabled, nothing; past the deadline, the timeout (R167); otherwise the retry (R166). One
reading of `now` serves both tests. -/
def pollWake (s : State) : State :=
  if wakeEnabled s.now s.block then
    if deadlinePassed s.now s.block then onBlock (fun b => { b with pto := true, ps := .idle }) s
    else onBlock (fun b => { b with ps := .req }) (emitRequest s.block.pn s)
  else s

end Sys2Proof.Machine
end

