-- ==== Sys2Proof/Machine/Sample.lean ====
section
/-! DEFINITION. The commands that load or invalidate the raw sample (42_decode.md R146 to R148). -/

namespace Sys2Proof.Machine

/-- `SMP.SET imm16` (R146): the host vouches for the sample, whatever `CRCERR` holds. -/
def execSmpSet (imm16 : BitVec 16) (s : State) : Outcome :=
  .next (onBlock (fun b => { b with raw := imm16, rawv := true }) s)

/-- `SMP.LD off` (R147): `RAW` is written in every case; `RAWV` by `BUFCNT` and `CRCERR`. -/
def execSmpLd (off : BitVec 4) (s : State) : Outcome :=
  whenLegal (.smpLd off)
    (onBlock fun b => { b with raw := sampleAt b off, rawv := loadedValid b off }) s

/-- `SMP.INV` (R148): `RAW` is left as it is. -/
def execSmpInv (s : State) : Outcome := .next (onBlock (fun b => { b with rawv := false }) s)

end Sys2Proof.Machine
end

