-- ==== Sys2Proof/Machine/System.lean ====
section
/-! DEFINITION. The system commands `NOP`, `CLRF`, `CFG.ADDR` (44_system.md R190 to R192). -/

namespace Sys2Proof.Machine

/-- `NOP` (R190). -/
def execNop (s : State) : Outcome := .next s

/-- `CLRF` (R191): `CMDERR` and `RAWV` are not changed. -/
def execClrf (s : State) : Outcome := .next (onBlock clearFlags s)

/-- `CFG.ADDR imm7` (R192): every seven-bit value is accepted. -/
def execCfgAddr (imm7 : BitVec 7) (s : State) : Outcome :=
  .next (onBlock (fun b => { b with addr := imm7 }) s)

end Sys2Proof.Machine
end

