-- ==== Sys2Proof/Machine/Dispatch.lean ====
section
/-! DEFINITION. One arm per command, each a direct call of its meaning. -/

namespace Sys2Proof.Machine

def exec (i : Instr) (s : State) : Host.Outcome State Fault Refusal :=
  match i with
  | .nop => Sys2Proof.Machine.execNop s
  | .clrf => Sys2Proof.Machine.execClrf s
  | .cfgAddr imm7 => Sys2Proof.Machine.execCfgAddr imm7 s
  | .crcClr => Sys2Proof.Machine.execCrcClr s
  | .crcByte imm8 => Sys2Proof.Machine.execCrcByte imm8 s
  | .crcBuf off len => Sys2Proof.Machine.execCrcBuf off len s
  | .crcVfy off len => Sys2Proof.Machine.execCrcVfy off len s
  | .smpSet imm16 => Sys2Proof.Machine.execSmpSet imm16 s
  | .smpLd off => Sys2Proof.Machine.execSmpLd off s
  | .smpInv => Sys2Proof.Machine.execSmpInv s
  | .decRh => Sys2Proof.Machine.execDecRh s
  | .decT => Sys2Proof.Machine.execDecT s
  | .poll n b t => Sys2Proof.Machine.execPoll n b t s

end Sys2Proof.Machine
end

