-- ==== Sys2Proof/Machine/ReadPort.lean ====
section
/-! DEFINITION. The register read port (10_state.md R37; 20_memory.md R62, R68): a function of the block, with no
side effect, at every instant. -/

namespace Sys2Proof.Machine

/-- `rd_data` for the register number `rd_sel` (10_state.md R37). -/
def readPort (b : Block) (k : BitVec 4) : Word :=
  match k.toNat with
  | 0 => statusWord b
  | 1 => b.crc.setWidth 32
  | 2 => b.raw.setWidth 32
  | 3 => b.result
  | 4 => readWord b.buf 0
  | 5 => readWord b.buf 4
  | 6 => b.addr.setWidth 32
  | 7 => pollcfgWord b
  | 8 => b.t0
  | 9 => b.ts
  | _ => 0x00000000#32

/-- Byte `j` of a read-port word, the most significant first: `v[31-8j : 24-8j]`. -/
def wordByte (v : Word) (j : Nat) : Byte := v.extractLsb' (24 - 8 * j) 8

/-- `BUF[i]` as the host sees it, in `BUFA` or `BUFB` (20_memory.md R68). -/
def hostBufByte (b : Block) (i : Nat) : Byte :=
  if i < 4 then wordByte (readPort b 4#4) i else wordByte (readPort b 5#4) (i - 4)

/-- `STATUS.POK`, bit 1 of register 0 (R35). -/
def hostPok (b : Block) : Bool := (readPort b 0#4).getLsbD 1

/-- `STATUS.CRCERR`, bit 4 of register 0 (R35). -/
def hostCrcerr (b : Block) : Bool := (readPort b 0#4).getLsbD 4

end Sys2Proof.Machine
end

