-- ==== Sys2Proof/Machine/Events.lean ====
section
/-! DEFINITION. The six events of 00_scope.md R7 and their effects, and which of them happens at an instant of the
input pins (60_exceptions.md R237). -/

namespace Sys2Proof.Machine

/-- `accept(w)` (30_encoding.md R104): match `w` against the opcode map; if no row matches, R100; otherwise the matched
command's rule, executed whole. -/
def acceptWord (w : Word) (s : State) : Outcome :=
  match decode w with
  | .ok i => exec i s
  | .error _ => .next (illegalCommand s)

/-- The effect of an event (00_scope.md R7; 43_poll.md R171). A read changes nothing (10_state.md R37). -/
def applyEvent (e : Event) (s : State) : Outcome :=
  match e with
  | .accept w => acceptWord w s
  | .read _ => .next s
  | .wake => .next (pollWake s)
  | .respond cnt d => .next (pollRespond cnt d s)
  | .tick => .next (tickClock s)
  | .reset => .next (resetBlock s)

/-- The event of an instant of the pins: reset wins over everything; in `REQ` a response is taken; in `IDLE` a valid
command word is accepted; a word or a response that is not taken has no effect, and the instant is a read of `rd_sel`
(20_memory.md R61, R62, R65; 60_exceptions.md R237). Log 11. -/
def pinsEvent (p : Pins) (b : Block) : Event :=
  if p.rst then .reset
  else if p.rspValid ∧ b.ps = .req then .respond p.rspCount p.rspData
  else if p.cmdValid ∧ cmdReady b then .accept p.cmdWord
  else .read p.rdSel

/-- What happens unless `rst` is asserted; while it is asserted, nothing does (70_reset_and_hazards.md R260). -/
def unlessReset (f : State → Outcome) (s : State) : Outcome := if s.rst then .next s else f s

/-- An instant of the pins: `rst` takes its level, and the instant's event happens. -/
def pinsInstant (p : Pins) (s : State) : Outcome := applyEvent (pinsEvent p s.block) { s with rst := p.rst }

/-- Pins at rest: nothing asserted, register 0 selected. -/
def idlePins : Pins where
  rst := false
  cmdValid := false
  cmdWord := 0#32
  rdSel := 0#4
  rspValid := false
  rspCount := 0#4
  rspData := 0#64

/-- An instant at which the host presents the command word `w`. -/
def commandPins (w : Word) : Pins := { idlePins with cmdValid := true, cmdWord := w }

/-- An instant at which the transport answers. -/
def responsePins (cnt : BitVec 4) (d : BitVec 64) : Pins :=
  { idlePins with rspValid := true, rspCount := cnt, rspData := d }

/-- An instant at which `rst` is asserted. -/
def resetPins : Pins := { idlePins with rst := true }

end Sys2Proof.Machine
end

