-- ==== Sys2Proof/Machine/HostSequences.lean ====
section
/-! DEFINITION. The host software at the block's boundary (48_host_sequences.md): the functions `classify` (R213) and
the revision mapping (R215), the host sequences R206 to R219 as code whose jumps all go forward, and the host agent
that runs one sequence at a time (R200). -/

namespace Sys2Proof.Machine

/-- `classify(m)` (R213), total on bytes. -/
def classify (m : Byte) : ModelClass :=
  if m = 0x00#8 ∨ m = 0xFF#8 then .engineeringSample
  else if m = 0x01#8 then .compatibleSHT25
  else if m = 0x0D#8 then .model7013
  else if m = 0x14#8 then .model7020
  else if m = 0x15#8 then .model7021
  else .unknown

/-- The revision byte mapping (R215). -/
def revisionOf (r : Byte) : Byte := if r = 0xFF#8 then 1#8 else if r = 0x20#8 then 2#8 else r

/-- `reset()` of the sensor (R207): write 0xFE, sleep 50 ms; its value is the write's. Log 18. -/
def sensorResetCode (otherwise : HostLabel) : List HostAction :=
  [ .send [0xFE#8] .resetNak, .sleep 50#32, .goto .resetAcked,
    .label .resetNak, .sleep 50#32, .goto otherwise, .label .resetAcked ]

/-- `readUserRegister1()` up to its value (R219). -/
def userRegisterCode (otherwise : HostLabel) : List HostAction :=
  [ .send [0xE7#8] otherwise, .blk (.poll 1#4 2#3 100#16), .needPok otherwise ]

/-- `resolve()` (R211 to R214). -/
def resolveCode : List HostAction :=
  [ .send [0xFA#8, 0x0F#8] .resolved, .blk (.poll 8#4 2#3 1000#16), .needPok .resolved,
    .blk (.crcVfy 0#4 1#4), .blk (.crcVfy 2#4 1#4), .blk (.crcVfy 4#4 1#4), .blk (.crcVfy 6#4 1#4),
    .needGoodCrc .resolved, .setSerialHigh,
    .send [0xFC#8, 0xC9#8] .resolved, .blk (.poll 6#4 2#3 1000#16), .needPok .resolved,
    .blk (.crcVfy 0#4 2#4), .blk (.crcVfy 3#4 2#4),
    .needGoodCrc .resolved, .setSerialLow, .classifyModel, .label .resolved ]

/-- `readFirmwareRevision()` up to its return (R215). -/
def firmwareCode : List HostAction :=
  [ .send [0x84#8, 0xB8#8] .noRevision, .blk (.poll 1#4 2#3 100#16), .needPok .noRevision,
    .setFirmware, .goto .revisionDone, .label .noRevision, .clearFirmware, .label .revisionDone ]

/-- A measurement (R209, R210): the sensor command, the poll, the check, the load, the decode; a write that is not
acknowledged goes by `SMP.INV` to the decode command instead, as the pseudocode of R209 has it. R217 lets the host
equally return the sentinel without touching the block; that no measurement of the model does so is its choice.
Log 26. -/
def measureCode (sensorCommand : Byte) (dec : Instr) : List HostAction :=
  [ .send [sensorCommand] .nak, .blk (.poll 3#4 6#3 100#16), .blk (.crcVfy 0#4 2#4), .blk (.smpLd 0#4),
    .goto .decode, .label .nak, .blk .smpInv, .label .decode, .blk dec, .ret .reading ]

/-- `sendCommand` (R206): true when the status is 0. -/
def sendCommandCode (bytes : List Byte) : List HostAction :=
  [ .send bytes .nak, .ret (.bool true), .label .nak, .ret (.bool false) ]

/-- `initialize()` (R208). Opening the bus is the transport's business and no action of the block's. -/
def initializeCode : List HostAction :=
  sensorResetCode .failed ++ userRegisterCode .failed ++ [.needUserRegister 0x3A#8 .failed] ++ resolveCode ++
    firmwareCode ++ [.ret (.bool true), .label .failed, .ret (.bool false)]

/-- The code of a host sequence (48_host_sequences.md R206 to R219). `readSerialNumber()` runs `resolve()` (R216) and, by
the model's choice, hands back no value: log 25. -/
def facadeCode : FacadeCall → List HostAction
  | .sendCommand1 x0 => sendCommandCode [x0]
  | .sendCommand2 x0 x1 => sendCommandCode [x0, x1]
  | .sensorReset => sensorResetCode .failed ++ [.ret (.bool true), .label .failed, .ret (.bool false)]
  | .readUserRegister1 =>
    userRegisterCode .failed ++ [.ret .userRegister, .label .failed, .ret .noUserRegister]
  | .initialise => initializeCode
  | .readHumidity => measureCode 0xF5#8 .decRh
  | .readTemperature => measureCode 0xF3#8 .decT
  | .resolve => resolveCode ++ [.ret .done]
  | .readFirmwareRevision => firmwareCode ++ [.ret .firmware]
  | .readSerialNumber => resolveCode ++ [.ret .done]
  | .getModel => [.ret .model]

/-- The code from just after the label on. -/
def codeAfter (l : HostLabel) : List HostAction → List HostAction
  | [] => []
  | .label l' :: rest => if l' = l then rest else codeAfter l rest
  | _ :: rest => codeAfter l rest

/-- The value a sequence returns. -/
def hostReturn (r : HostReturn) (b : Block) (x : Session) : HostResult :=
  match r with
  | .bool v => .bool v
  | .userRegister => .userRegister true (hostBufByte b 0)
  | .noUserRegister => .userRegister false 0#8
  | .reading => .reading (readPort b 3#4)
  | .firmware => .firmware x.firmware
  | .model => .model x.model
  | .done => .done

/-- A change of the host software alone. -/
def onHost (f : HostAgent → HostAgent) (s : State) : State := { s with host := f s.host }

/-- Go on with the code. -/
def continueWith (code : List HostAction) (s : State) : State := onHost (fun h => { h with code := code }) s

/-- A change of the DeviceSession (R204). -/
def onSession (f : Session → Session) (s : State) : State := onHost (fun h => { h with session := f h.session }) s

/-- `SerialNumber.high <- v`, which is "immutable once populated": a populated field keeps its value (R204, R211).
Log 27. -/
def populateSerialHigh (v : Word) (x : Session) : Session :=
  if x.serialHighPopulated then x else { x with serialHigh := v, serialHighPopulated := true }

/-- `SerialNumber.low <- v`, "immutable once populated" (R204, R212). Log 27. -/
def populateSerialLow (v : Word) (x : Session) : Session :=
  if x.serialLowPopulated then x else { x with serialLow := v, serialLowPopulated := true }

/-- `ModelClassification <- m`, "set once during identification, read-only afterward" (R204, R213). Log 27. -/
def populateModel (m : ModelClass) (x : Session) : Session :=
  if x.modelPopulated then x else { x with model := m, modelPopulated := true }

/-- What an action does to the DeviceSession; only the identity sequences' assignments do anything. -/
def sessionEffect (a : HostAction) (b : Block) (x : Session) : Session :=
  match a with
  | .setSerialHigh =>
    populateSerialHigh (hostBufByte b 0 ++ hostBufByte b 2 ++ hostBufByte b 4 ++ hostBufByte b 6) x
  | .setSerialLow =>
    populateSerialLow (hostBufByte b 0 ++ hostBufByte b 1 ++ hostBufByte b 3 ++ hostBufByte b 4) x
  | .classifyModel => populateModel (classify (wordByte x.serialLow 0)) x
  | .setFirmware => { x with firmware := revisionOf (hostBufByte b 0) }
  | .clearFirmware => { x with firmware := 0#8 }
  | .send _ _ | .awaitStatus _ | .sleep _ | .sleepFrom _ _ | .blk _ | .needPok _ | .needGoodCrc _
  | .needUserRegister _ _ | .goto _ | .label _ | .ret _ => x

/-- The host's action `a`, with `rest` the code after it. -/
def hostAction (a : HostAction) (rest : List HostAction) (s : State) : Outcome :=
  match a with
  | .send bytes l =>
    .next (onHost (fun h => { h with
      code := .awaitStatus l :: rest,
      writes := h.writes ++ [⟨s.block.addr, bytes, Config.sendStop⟩] }) s)
  | .awaitStatus _ => .next s
  | .sleep ms => .next (continueWith (.sleepFrom s.now ms :: rest) s)
  | .sleepFrom since ms =>
    .next (if ms.toNat ≤ (elapsed s.now since).toNat then continueWith rest s else s)
  | .blk i => acceptWord (encode i) (continueWith rest s)
  | .needPok l => .next (continueWith (if hostPok s.block then rest else codeAfter l rest) s)
  | .needGoodCrc l => .next (continueWith (if hostCrcerr s.block then codeAfter l rest else rest) s)
  | .needUserRegister v l =>
    .next (continueWith (if hostBufByte s.block 0 = v then rest else codeAfter l rest) s)
  | .setSerialHigh => .next (continueWith rest (onSession (sessionEffect .setSerialHigh s.block) s))
  | .setSerialLow => .next (continueWith rest (onSession (sessionEffect .setSerialLow s.block) s))
  | .classifyModel => .next (continueWith rest (onSession (sessionEffect .classifyModel s.block) s))
  | .setFirmware => .next (continueWith rest (onSession (sessionEffect .setFirmware s.block) s))
  | .clearFirmware => .next (continueWith rest (onSession (sessionEffect .clearFirmware s.block) s))
  | .goto l => .next (continueWith (codeAfter l rest) s)
  | .label _ => .next (continueWith rest s)
  | .ret r =>
    .next (onHost (fun h => { h with code := [], result := hostReturn r s.block h.session }) s)

/-- The host software takes its next action, if a sequence runs and `cmd_ready == 1`: its calls block until the block
is ready again (48_host_sequences.md, what `blk` stands for; 20_memory.md R61). Log 15. -/
def hostStep (s : State) : Outcome :=
  match s.host.code with
  | [] => .next s
  | a :: rest => if cmdReady s.block then hostAction a rest s else .next s

/-- A call of a host sequence; it begins only when none runs (R200). Log 21. -/
def hostCall (c : FacadeCall) (s : State) : State :=
  match s.host.code with
  | [] => continueWith (facadeCode c) s
  | _ :: _ => s

/-- The status of the bus write the host waits for: 0 is success, any other value a NAK (R201; U14). Log 20. -/
def hostStatus (status : Nat) (s : State) : State :=
  match s.host.code with
  | .awaitStatus l :: rest => continueWith (if status = 0 then rest else codeAfter l rest) s
  | _ => s

end Sys2Proof.Machine
end

