-- ==== Sys2Proof/Machine/Inputs.lean ====
section
/-! DEFINITION. What each input does. While `rst` is asserted no event happens but the instants of the pins
(70_reset_and_hazards.md R260). -/

namespace Sys2Proof.Machine

/-- What an input does, the input already taken from the list. Under an asserted `rst` the block does not wake, the clock
does not tick and the host software, which finds `cmd_ready` only "when it is released", waits (R260; log 10). -/
def applyInput (i : Input) (s : State) : Outcome :=
  match i with
  | .pins p => pinsInstant p s
  | .wake => unlessReset (applyEvent .wake) s
  | .tick => unlessReset (applyEvent .tick) s
  | .call c => .next (hostCall c s)
  | .host => unlessReset hostStep s
  | .writeStatus status => .next (hostStatus status s)

end Sys2Proof.Machine
end

