-- ==== Sys2Proof/Machine/Step.lean ====
section
/-! DEFINITION. The step: the next input happens. There is no program counter and no fetch (10_state.md R38): the host
presents command words one at a time. -/

namespace Sys2Proof.Machine

/-- One step: the next input happens; with no input nothing happens. Log 2. -/
def step (s : State) : Host.Outcome State Fault Refusal :=
  match s.inputs with
  | [] => .next s
  | i :: rest => applyInput i { s with inputs := rest }

/-- The state in which the very next step accepts the word: the host presents it at the next instant, to a block that
is ready for it (20_memory.md R61). Where the block is ready already nothing but the next input is changed. Log 1. -/
def State.withFetchWord (s : State) (nbits w : Nat) : State :=
  { s with
    block := { s.block with ps := .idle },
    inputs := .pins (commandPins (BitVec.ofNat 32 (w % 2 ^ nbits))) :: s.inputs }

end Sys2Proof.Machine
end

