-- ==== Sys2Proof/Safety.lean ====
section
/-! DEFINITION. The terms claims use: the invariants of 10_state.md R41 and R42, which event and which command a step
performs, runs, and the environment of 43_poll.md R172. -/

namespace Sys2Proof.Machine

/-- The invariants (a) to (f) of 10_state.md R41. -/
structure BlockInv (b : Block) : Prop where
  /-- (a) `POK & PTO == 0`. -/
  endsExclude : ¬(b.pok = true ∧ b.pto = true)
  /-- (b) `BUFCNT` is 0 or equals `PN`. -/
  countIsTarget : b.bufcnt = 0#4 ∨ b.bufcnt = b.pn
  /-- (b) `BUFCNT <= 8`. -/
  countBound : b.bufcnt.toNat ≤ 8
  /-- (c) `BUF[i] == 0` for every `i >= BUFCNT`. -/
  zeroBeyondCount : ∀ i, b.bufcnt.toNat ≤ i → Memory.read b.buf i = 0x00#8
  /-- (d) `PS` is 0, 2 or 3. -/
  stateCode : pollStateBits b.ps = 0#2 ∨ pollStateBits b.ps = 2#2 ∨ pollStateBits b.ps = 3#2
  /-- (e) while a poll runs its flags are clear and its operands in range. -/
  busyClear : b.ps ≠ .idle →
    b.pok = false ∧ b.pto = false ∧ b.bufcnt = 0#4 ∧ b.rawv = false ∧ b.crcerr = false ∧
      1 ≤ b.pn.toNat ∧ b.pn.toNat ≤ 8 ∧ 2 ≤ b.pb.toNat ∧ b.pb.toNat ≤ 6
  /-- (f) `POK == 1` implies `BUFCNT == PN >= 1`. -/
  successCount : b.pok = true → b.bufcnt = b.pn ∧ 1 ≤ b.pn.toNat

/-- The invariant of a state: R41, the receive buffer in its canonical form (log 7), and the block at its reset values as
long as `rst` is asserted (70_reset_and_hazards.md R260). -/
structure StateInv (s : State) : Prop where
  block : BlockInv s.block
  buffer : Memory.wf s.block.buf
  heldReset : s.rst = true → s.block = Block.reset

/-- While `PS == REQ` the request outstanding on the transport port, the last entry of its history, is `(ADDR, PN)`
(10_state.md R42). -/
def OutstandingInv (s : State) : Prop :=
  s.block.ps = .req → s.history.getLast? = some (.request s.block.addr s.block.pn)

/-- The event of 00_scope.md R7 that the next step performs, if it performs one: an input pin's, the block's own, the
clock's, or the acceptance of the command the host software presents. While `rst` is asserted only an instant of the
pins performs one (70_reset_and_hazards.md R260). -/
def nextEvent (s : State) : Option Event :=
  match s.inputs with
  | .pins p :: _ => some (pinsEvent p s.block)
  | .wake :: _ => if s.rst then none else some .wake
  | .tick :: _ => if s.rst then none else some .tick
  | .host :: _ =>
    match s.host.code with
    | .blk i :: _ => if cmdReady s.block = true ∧ s.rst = false then some (.accept (encode i)) else none
    | _ => none
  | _ => none

/-- The legal command that the next step accepts, if it accepts one. -/
def nextCommand (s : State) : Option Instr :=
  match nextEvent s with
  | some (.accept w) =>
    match decode w with
    | .ok i => some i
    | .error _ => none
  | _ => none

/-- The next step is a `reset` event. -/
def resetsNext (s : State) : Prop := nextEvent s = some .reset

/-- `k` steps, stopping at the first fault or refusal. -/
def runSteps : Nat → State → Outcome
  | 0, s => .next s
  | k + 1, s =>
    match step s with
    | .next t => runSteps k t
    | .fault r => .fault r
    | .refused r => .refused r

/-- Commands executed one after another, stopping at the first fault or refusal. -/
def runCommands : List Instr → State → Outcome
  | [], s => .next s
  | i :: is, s =>
    match exec i s with
    | .next t => runCommands is t
    | .fault r => .fault r
    | .refused r => .refused r

/-- One failed attempt in the ideal environment of 43_poll.md R172: the answer comes at once with no bytes, `b`
milliseconds pass, and `wake` happens the instant it is enabled. -/
def failedRound (b : Nat) : List Input :=
  .pins (responsePins 0#4 0#64) :: (List.replicate b .tick ++ [.wake])

end Sys2Proof.Machine
end

