-- ==== Sys2Proof/Certificates/Slice0/Obligations.lean ====
section
/-! DEFINITION. The statements. Each says in its docstring which rule of spec/ it formalises. -/

open Sys2Proof Sys2Proof.Machine

namespace Sys2Proof.Spec

/-- 30_encoding.md R98 and R99 word by word: `w` matches a row's mask and pattern and meets its operand constraint. -/
def legalWord (w : Word) : Prop :=
  w &&& 0xFFFFFFFF#32 = 0x00000000#32 ∨ w &&& 0xFFFFFFFF#32 = 0x01000000#32 ∨
  w &&& 0xFFFFFF80#32 = 0x02000000#32 ∨ w &&& 0xFFFFFFFF#32 = 0x10000000#32 ∨
  w &&& 0xFFFFFF00#32 = 0x11000000#32 ∨
  (w &&& 0xFFFFFF00#32 = 0x12000000#32 ∧ w.toNat / 16 % 16 + w.toNat % 16 ≤ 8) ∨
  (w &&& 0xFFFFFF00#32 = 0x13000000#32 ∧ 1 ≤ w.toNat % 16 ∧ w.toNat / 16 % 16 + w.toNat % 16 ≤ 7) ∨
  w &&& 0xFFFF0000#32 = 0x20000000#32 ∨
  (w &&& 0xFFFFFF0F#32 = 0x21000000#32 ∧ w.toNat / 16 % 16 ≤ 6) ∨
  w &&& 0xFFFFFFFF#32 = 0x22000000#32 ∨ w &&& 0xFFFFFFFF#32 = 0x23000000#32 ∨
  w &&& 0xFFFFFFFF#32 = 0x24000000#32 ∨
  (w &&& 0xFF080000#32 = 0x30000000#32 ∧
    1 ≤ w.toNat / 2 ^ 20 % 16 ∧ w.toNat / 2 ^ 20 % 16 ≤ 8 ∧
    2 ≤ w.toNat / 2 ^ 16 % 8 ∧ w.toNat / 2 ^ 16 % 8 ≤ 6)

/-- The table of 95_test_vectors.md section 2.2, rows 0x0_ to 0x7_. -/
def crcTableLow : List Nat :=
  [0x00, 0x31, 0x62, 0x53, 0xC4, 0xF5, 0xA6, 0x97, 0xB9, 0x88, 0xDB, 0xEA, 0x7D, 0x4C, 0x1F, 0x2E] ++
  [0x43, 0x72, 0x21, 0x10, 0x87, 0xB6, 0xE5, 0xD4, 0xFA, 0xCB, 0x98, 0xA9, 0x3E, 0x0F, 0x5C, 0x6D] ++
  [0x86, 0xB7, 0xE4, 0xD5, 0x42, 0x73, 0x20, 0x11, 0x3F, 0x0E, 0x5D, 0x6C, 0xFB, 0xCA, 0x99, 0xA8] ++
  [0xC5, 0xF4, 0xA7, 0x96, 0x01, 0x30, 0x63, 0x52, 0x7C, 0x4D, 0x1E, 0x2F, 0xB8, 0x89, 0xDA, 0xEB] ++
  [0x3D, 0x0C, 0x5F, 0x6E, 0xF9, 0xC8, 0x9B, 0xAA, 0x84, 0xB5, 0xE6, 0xD7, 0x40, 0x71, 0x22, 0x13] ++
  [0x7E, 0x4F, 0x1C, 0x2D, 0xBA, 0x8B, 0xD8, 0xE9, 0xC7, 0xF6, 0xA5, 0x94, 0x03, 0x32, 0x61, 0x50] ++
  [0xBB, 0x8A, 0xD9, 0xE8, 0x7F, 0x4E, 0x1D, 0x2C, 0x02, 0x33, 0x60, 0x51, 0xC6, 0xF7, 0xA4, 0x95] ++
  [0xF8, 0xC9, 0x9A, 0xAB, 0x3C, 0x0D, 0x5E, 0x6F, 0x41, 0x70, 0x23, 0x12, 0x85, 0xB4, 0xE7, 0xD6]

/-- The table of 95_test_vectors.md section 2.2, rows 0x8_ to 0xF_. -/
def crcTableHigh : List Nat :=
  [0x7A, 0x4B, 0x18, 0x29, 0xBE, 0x8F, 0xDC, 0xED, 0xC3, 0xF2, 0xA1, 0x90, 0x07, 0x36, 0x65, 0x54] ++
  [0x39, 0x08, 0x5B, 0x6A, 0xFD, 0xCC, 0x9F, 0xAE, 0x80, 0xB1, 0xE2, 0xD3, 0x44, 0x75, 0x26, 0x17] ++
  [0xFC, 0xCD, 0x9E, 0xAF, 0x38, 0x09, 0x5A, 0x6B, 0x45, 0x74, 0x27, 0x16, 0x81, 0xB0, 0xE3, 0xD2] ++
  [0xBF, 0x8E, 0xDD, 0xEC, 0x7B, 0x4A, 0x19, 0x28, 0x06, 0x37, 0x64, 0x55, 0xC2, 0xF3, 0xA0, 0x91] ++
  [0x47, 0x76, 0x25, 0x14, 0x83, 0xB2, 0xE1, 0xD0, 0xFE, 0xCF, 0x9C, 0xAD, 0x3A, 0x0B, 0x58, 0x69] ++
  [0x04, 0x35, 0x66, 0x57, 0xC0, 0xF1, 0xA2, 0x93, 0xBD, 0x8C, 0xDF, 0xEE, 0x79, 0x48, 0x1B, 0x2A] ++
  [0xC1, 0xF0, 0xA3, 0x92, 0x05, 0x34, 0x67, 0x56, 0x78, 0x49, 0x1A, 0x2B, 0xBC, 0x8D, 0xDE, 0xEF] ++
  [0x82, 0xB3, 0xE0, 0xD1, 0x46, 0x77, 0x24, 0x15, 0x3B, 0x0A, 0x59, 0x68, 0xFF, 0xCE, 0x9D, 0xAC]

/-- `TABLE[v]` of 41_crc.md R122 (b), as 95_test_vectors.md section 2.2 prints it. -/
def crcTable : List Nat := crcTableLow ++ crcTableHigh

/-- A byte as a polynomial over GF(2), most significant bit first (41_crc.md R122 (a)). -/
noncomputable def bytePoly (b : Byte) : Polynomial (ZMod 2) :=
  ∑ i ∈ Finset.range 8, if b.getLsbD i then Polynomial.X ^ i else 0

/-- A byte sequence as a polynomial over GF(2), the first byte most significant. -/
noncomputable def messagePoly (bytes : List Byte) : Polynomial (ZMod 2) :=
  bytes.foldl (fun p b => p * Polynomial.X ^ 8 + bytePoly b) 0

/-- The generator `x^8 + x^5 + x^4 + 1` (41_crc.md R122 (a)). -/
noncomputable def generatorPoly : Polynomial (ZMod 2) :=
  Polynomial.X ^ 8 + Polynomial.X ^ 5 + Polynomial.X ^ 4 + 1

/-- `rne24(P)` of 42_decode.md R144: round a natural number to 24 significant bits, ties to even. -/
def rne24 (p : Nat) : Nat :=
  let l := if p = 0 then 0 else Nat.log2 p + 1
  if l ≤ 24 then p
  else
    let s := l - 24
    let q := p / 2 ^ s
    let r := p % 2 ^ s
    let h := 2 ^ (s - 1)
    (if h < r ∨ (r = h ∧ q % 2 = 1) then q + 1 else q) * 2 ^ s

/-- `D'` of 42_decode.md R144: `decodeTemperature(raw) == D' * 2^-32`. -/
def temperatureScaled (raw : Nat) : Int :=
  let d : Int := (rne24 (raw * 11515986) : Int) - 201219211264
  if d < 0 then -(rne24 d.natAbs : Int) else (rne24 d.natAbs : Int)

end Sys2Proof.Spec

open Sys2Proof.Spec

/-! ### The system commands -/

/-- 44_system.md R190: the all-zero word is `NOP`; no state element changes. -/
def Obligations.NopRunsAndChangesNothing : Prop :=
  decode 0x00000000#32 = .ok .nop ∧ ∀ s : State, exec .nop s = .next s

/-- 44_system.md R191: `POK`, `PTO` and `CRCERR` become 0 and nothing else changes, `CMDERR` and `RAWV` among it. -/
def Obligations.ClrfClearsExactlyThreeFlags : Prop :=
  decode 0x01000000#32 = .ok .clrf ∧
  ∀ s : State, exec .clrf s =
    .next { s with block := { s.block with pok := false, pto := false, crcerr := false } }

/-- 44_system.md R192: `ADDR <- imm7`, nothing else changes, a word with bit 7 set is illegal, and the requests of the
next poll carry the new address. -/
def Obligations.CfgAddrWritesTheBusAddress : Prop :=
  (∀ imm7 : BitVec 7, decode (0x02000000#32 ||| imm7.setWidth 32) = .ok (.cfgAddr imm7)) ∧
  (∀ (s : State) (imm7 : BitVec 7), acceptWord (0x02000080#32 ||| imm7.setWidth 32) s =
    .next { s with block := { s.block with cmderr := true } }) ∧
  ∀ (s : State) (imm7 : BitVec 7),
    exec (.cfgAddr imm7) s = .next { s with block := { s.block with addr := imm7 } } ∧
    ∀ (n : BitVec 4) (b : BitVec 3) (t : BitVec 16), (Instr.poll n b t).wellFormed = true →
      ∃ u, runCommands [.cfgAddr imm7, .poll n b t] s = .next u ∧
        u.history = s.history ++ [.request imm7 n]

/-! ### The CRC-8 validator -/

/-- 41_crc.md R123: `CRC <- 0x00` and nothing else changes. -/
def Obligations.CrcClrZeroesTheAccumulator : Prop :=
  decode 0x10000000#32 = .ok .crcClr ∧
  ∀ s : State, exec .crcClr s = .next { s with block := { s.block with crc := 0x00#8 } }

/-- 41_crc.md R124: `CRC <- crc8_step(CRC, imm8)` and nothing else changes. -/
def Obligations.CrcByteStepsTheAccumulator : Prop :=
  ∀ (s : State) (imm8 : BitVec 8),
    decode (0x11000000#32 ||| imm8.setWidth 32) = .ok (.crcByte imm8) ∧
    exec (.crcByte imm8) s =
      .next { s with block := { s.block with crc := crc8Step s.block.crc imm8 } }

/-- 41_crc.md R125: over the bytes of `BUF`, from seed 0, and nothing else changes; out of range the word is illegal
and sets `CMDERR` alone (30_encoding.md R99, R100). -/
def Obligations.CrcBufComputesOverTheBuffer : Prop :=
  ∀ (s : State) (off len : BitVec 4),
    (off.toNat + len.toNat ≤ 8 →
      decode (0x12000000#32 ||| (off.setWidth 32 <<< 4) ||| len.setWidth 32) = .ok (.crcBuf off len) ∧
      exec (.crcBuf off len) s =
        .next { s with block := { s.block with
          crc := ((List.range len.toNat).map
            (fun i => Memory.read s.block.buf (off.toNat + i))).foldl crc8Step 0x00#8 } }) ∧
    (8 < off.toNat + len.toNat →
      acceptWord (0x12000000#32 ||| (off.setWidth 32 <<< 4) ||| len.setWidth 32) s = .next { s with block := { s.block with cmderr := true } })

/-- 41_crc.md R126: `CRC` is the computed value in both cases; a group that does not verify, one with a byte that was
not received among them, sets `CRCERR` and clears `RAWV`; one that verifies changes no flag. Out of range the word is
illegal (30_encoding.md R99, R100). -/
def Obligations.CrcVfyChecksTheGroup : Prop :=
  ∀ (s : State) (off len : BitVec 4),
    (1 ≤ len.toNat → off.toNat + len.toNat ≤ 7 →
      decode (0x13000000#32 ||| (off.setWidth 32 <<< 4) ||| len.setWidth 32) = .ok (.crcVfy off len) ∧
      ∀ c : Byte, c = ((List.range len.toNat).map
          (fun i => Memory.read s.block.buf (off.toNat + i))).foldl crc8Step 0x00#8 →
        (off.toNat + len.toNat + 1 ≤ s.block.bufcnt.toNat ∧
            c = Memory.read s.block.buf (off.toNat + len.toNat) →
          exec (.crcVfy off len) s = .next { s with block := { s.block with crc := c } }) ∧
        (¬(off.toNat + len.toNat + 1 ≤ s.block.bufcnt.toNat ∧
            c = Memory.read s.block.buf (off.toNat + len.toNat)) →
          exec (.crcVfy off len) s =
            .next { s with block := { s.block with crc := c, crcerr := true, rawv := false } })) ∧
    (len.toNat = 0 ∨ 7 < off.toNat + len.toNat →
      acceptWord (0x13000000#32 ||| (off.setWidth 32 <<< 4) ||| len.setWidth 32) s = .next { s with block := { s.block with cmderr := true } })

/-- 41_crc.md R122 (b): the byte step is the table of 95_test_vectors.md section 2.2 at `acc ^ b`. -/
def Obligations.CrcStepIsTheTable : Prop :=
  ∀ acc b : Byte, (crc8Step acc b).toNat = crcTable.getD (acc ^^^ b).toNat 0

/-- 41_crc.md R122 (c), (d): linear over GF(2), and a bijection of the accumulator for each byte. -/
def Obligations.CrcStepIsLinearAndBijective : Prop :=
  (∀ a1 a2 b1 b2 : Byte,
    crc8Step (a1 ^^^ a2) (b1 ^^^ b2) = crc8Step a1 b1 ^^^ crc8Step a2 b2) ∧
  crc8Step 0x00#8 0x00#8 = 0x00#8 ∧
  ∀ b : Byte, Function.Bijective (fun acc => crc8Step acc b)

/-- 41_crc.md R122 (e), (f): the checksum appended gives zero; leading zero bytes change nothing; zeros give zero. -/
def Obligations.CrcResidueAndZeros : Prop :=
  (∀ bytes : List Byte, crc8Compute (bytes ++ [crc8Compute bytes]) = 0x00#8) ∧
  (∀ (k : Nat) (bytes : List Byte), crc8Compute (List.replicate k 0x00#8 ++ bytes) = crc8Compute bytes) ∧
  ∀ k : Nat, crc8Compute (List.replicate k 0x00#8) = 0x00#8

/-- 41_crc.md R120, R121 with R122 (a): the checksum is the remainder of the message times `x^8` by the generator
`x^8 + x^5 + x^4 + 1` over GF(2), most significant bit first, nothing reflected and nothing added. -/
def Obligations.CrcIsThePolynomialRemainder : Prop :=
  ∀ bytes : List Byte,
    bytePoly (crc8Compute bytes) = (messagePoly bytes * Polynomial.X ^ 8) %ₘ generatorPoly

/-- 41_crc.md R124 with R121 and R123: `CRC.CLR` and then one `CRC.BYTE` per byte leave `compute` of the sequence, of
any length, and change nothing else. -/
def Obligations.StreamedBytesGiveCompute : Prop :=
  ∀ (s : State) (bytes : List Byte),
    runCommands (.crcClr :: bytes.map .crcByte) s =
      .next { s with block := { s.block with crc := crc8Compute bytes } }

/-! ### The measurement decoder -/

/-- 42_decode.md R146: `RAW <- imm16`, `RAWV <- 1`, whatever `CRCERR` holds, and nothing else changes. -/
def Obligations.SmpSetLoadsTheGivenSample : Prop :=
  ∀ (s : State) (imm16 : BitVec 16),
    decode (0x20000000#32 ||| imm16.setWidth 32) = .ok (.smpSet imm16) ∧
    exec (.smpSet imm16) s = .next { s with block := { s.block with raw := imm16, rawv := true } }

/-- 42_decode.md R147: `RAW` from two bytes of `BUF`, the first most significant, in every case; `RAWV` is 1 exactly when
both were received and `CRCERR == 0`. Out of range the word is illegal (30_encoding.md R99, R100). -/
def Obligations.SmpLdLoadsFromTheBuffer : Prop :=
  ∀ (s : State) (off : BitVec 4),
    (off.toNat ≤ 6 →
      decode (0x21000000#32 ||| (off.setWidth 32 <<< 4)) = .ok (.smpLd off) ∧
      exec (.smpLd off) s = .next { s with block := { s.block with
        raw := Memory.read s.block.buf off.toNat ++ Memory.read s.block.buf (off.toNat + 1),
        rawv := decide (off.toNat + 2 ≤ s.block.bufcnt.toNat ∧ s.block.crcerr = false) } }) ∧
    (6 < off.toNat →
      acceptWord (0x21000000#32 ||| (off.setWidth 32 <<< 4)) s = .next { s with block := { s.block with cmderr := true } })

/-- 42_decode.md R148: `RAWV <- 0`; `RAW` is left as it is and nothing else changes. -/
def Obligations.SmpInvInvalidatesTheSample : Prop :=
  decode 0x22000000#32 = .ok .smpInv ∧
  ∀ s : State, exec .smpInv s = .next { s with block := { s.block with rawv := false } }

/-- 42_decode.md R149: `RESULT` is the humidity of a valid sample and the sentinel of an invalid one; nothing else
changes. -/
def Obligations.DecRhDecodesOrGivesTheSentinel : Prop :=
  decode 0x23000000#32 = .ok .decRh ∧
  ∀ s : State,
    (s.block.rawv = true →
      exec .decRh s = .next { s with block := { s.block with result := decodeHumidity s.block.raw } }) ∧
    (s.block.rawv = false →
      exec .decRh s = .next { s with block := { s.block with result := 0x7FC00000#32 } })

/-- 42_decode.md R150: `RESULT` is the temperature of a valid sample and the sentinel of an invalid one; nothing else
changes. -/
def Obligations.DecTDecodesOrGivesTheSentinel : Prop :=
  decode 0x24000000#32 = .ok .decT ∧
  ∀ s : State,
    (s.block.rawv = true →
      exec .decT s = .next { s with block := { s.block with result := decodeTemperature s.block.raw } }) ∧
    (s.block.rawv = false →
      exec .decT s = .next { s with block := { s.block with result := 0x7FC00000#32 } })

/-- 42_decode.md R143: the humidity is exactly `(125 * raw - 393216) / 65536` up to `raw == 55574` and the datum 100.0 from
there on; no lower clamp (90_conflicts.md C1). -/
def Obligations.HumidityIsExactAndClampedAbove : Prop :=
  ∀ raw : Half,
    (raw.toNat ≤ 55574 →
      (f32Value (decodeHumidity raw)).num * 65536 =
        (125 * (raw.toNat : Int) - 393216) * (f32Value (decodeHumidity raw)).den) ∧
    (55575 ≤ raw.toNat → decodeHumidity raw = 0x42C80000#32) ∧
    (f32Value (decodeHumidity raw)).num ≤ 100 * (f32Value (decodeHumidity raw)).den

/-- 42_decode.md R144: the binary32 evaluation of the temperature equals the integer form of the same rule, `D' * 2^-32`,
for every sample. -/
def Obligations.TemperatureEqualsItsIntegerForm : Prop :=
  ∀ raw : Half,
    (f32Value (decodeTemperature raw)).num * 2 ^ 32 =
      temperatureScaled raw.toNat * (f32Value (decodeTemperature raw)).den

/-- 42_decode.md R144: the temperature increases strictly with the sample, is negative up to 17473 and positive from 17474,
least at 0 and greatest at 65535, with no clamp at either end. -/
def Obligations.TemperatureIncreasesStrictly : Prop :=
  (∀ r r' : Half, r.toNat < r'.toNat → f32Lt (decodeTemperature r) (decodeTemperature r') = true) ∧
  (∀ r : Half, (f32Value (decodeTemperature r)).num < 0 ↔ r.toNat ≤ 17473) ∧
  (∀ r : Half, 0 < (f32Value (decodeTemperature r)).num ↔ 17474 ≤ r.toNat) ∧
  decodeTemperature 0x0000#16 = 0xC23B6666#32 ∧ decodeTemperature 0xFFFF#16 = 0x4300DE08#32

/-- 42_decode.md R145, R151: neither formula gives a NaN, an infinity, a subnormal or a zero, so a decode command leaves the
sentinel exactly when it finds `RAWV == 0`. -/
def Obligations.SentinelExactlyOfInvalidSamples : Prop :=
  (∀ raw : Half,
    (1 ≤ ((decodeHumidity raw).extractLsb' 23 8).toNat ∧
      ((decodeHumidity raw).extractLsb' 23 8).toNat ≤ 254) ∧
    1 ≤ ((decodeTemperature raw).extractLsb' 23 8).toNat ∧
      ((decodeTemperature raw).extractLsb' 23 8).toNat ≤ 254) ∧
  ∀ s : State, ∃ t u, exec .decRh s = .next t ∧ exec .decT s = .next u ∧
    (t.block.result = 0x7FC00000#32 ↔ s.block.rawv = false) ∧
    (u.block.result = 0x7FC00000#32 ↔ s.block.rawv = false)

/-- 42_decode.md R141 on data that need no rounding: `f32` of the value of a normal binary32 datum is that datum. -/
def Obligations.RoundingKeepsBinary32Data : Prop :=
  ∀ v : Word, 1 ≤ (v.extractLsb' 23 8).toNat → (v.extractLsb' 23 8).toNat ≤ 254 →
    f32 (f32Value v) = v

/-! ### The poll state machine -/

/-- 43_poll.md R162: what a start clears, latches, emits and keeps; it holds whatever `t` is. Out of range the word is
illegal and starts nothing (30_encoding.md R99, R100). -/
def Obligations.PollStartClearsLatchesAndRequests : Prop :=
  ∀ (s : State) (n : BitVec 4) (b : BitVec 3) (t : BitVec 16),
    (1 ≤ n.toNat → n.toNat ≤ 8 → 2 ≤ b.toNat → b.toNat ≤ 6 →
      decode (0x30000000#32 ||| (n.setWidth 32 <<< 20) ||| (b.setWidth 32 <<< 16) ||| t.setWidth 32) =
        .ok (.poll n b t) ∧
      ∃ u, exec (.poll n b t) s = .next u ∧
        (∀ a, Memory.read u.block.buf a = 0x00#8) ∧
        u = { s with
          block := { s.block with
            buf := u.block.buf, bufcnt := 0#4, pok := false, pto := false, rawv := false, crcerr := false,
            pn := n, pb := b, pt := t, t0 := s.now, ps := .req },
          history := s.history ++ [.request s.block.addr n] }) ∧
    (n.toNat = 0 ∨ 8 < n.toNat ∨ b.toNat < 2 ∨ 6 < b.toNat →
      acceptWord
        (0x30000000#32 ||| (n.setWidth 32 <<< 20) ||| (b.setWidth 32 <<< 16) ||| t.setWidth 32) s = .next { s with block := { s.block with cmderr := true } })

/-- 43_poll.md R163: in `REQ`, an answer with exactly `PN` bytes ends the poll successfully however late it comes and
whatever the command pins say (60_exceptions.md R237). -/
def Obligations.ExactAnswerEndsThePoll : Prop :=
  ∀ (s : State) (p : Pins) (rest : List Input),
    StateInv s → p.rst = false → p.rspValid = true → s.block.ps = .req → p.rspCount = s.block.pn →
      ∃ u, step { s with inputs := .pins p :: rest } = .next u ∧
        (∀ i, i < s.block.pn.toNat →
          Memory.read u.block.buf i = p.rspData.extractLsb' (56 - 8 * i) 8) ∧
        (∀ i, s.block.pn.toNat ≤ i → Memory.read u.block.buf i = 0x00#8) ∧
        u = { s with
          inputs := rest, rst := false,
          block := { s.block with buf := u.block.buf, bufcnt := s.block.pn, pok := true, ps := .idle },
          history := s.history ++ [.response p.rspCount p.rspData] }

/-- 43_poll.md R164: in `REQ`, an answer with any other count, more bytes than asked among them, latches the time and
sleeps; its bytes are dropped and no flag is written. -/
def Obligations.OtherAnswerGoesToSleep : Prop :=
  ∀ (s : State) (p : Pins) (rest : List Input),
    p.rst = false → p.rspValid = true → s.block.ps = .req → p.rspCount ≠ s.block.pn →
      step { s with inputs := .pins p :: rest } =
        .next { s with
          inputs := rest, rst := false,
          block := { s.block with ts := s.now, ps := .sleep },
          history := s.history ++ [.response p.rspCount p.rspData] }

/-- 43_poll.md R165: `wake` is not enabled outside `SLEEP` and not before `PB` milliseconds have passed since the failed
attempt; then it changes nothing. -/
def Obligations.WakeWaitsForTheBackoff : Prop :=
  ∀ (s : State) (rest : List Input),
    s.block.ps ≠ .sleep ∨ (s.now - s.block.ts).toNat < s.block.pb.toNat →
      step { s with inputs := .wake :: rest } = .next { s with inputs := rest }

/-- 43_poll.md R166, R167: an enabled `wake` at an elapsed time of at most `PT` emits the request again; above `PT` it sets
`PTO` and ends the poll, and nothing else marks the failure. -/
def Obligations.EnabledWakeRetriesOrTimesOut : Prop :=
  ∀ (s : State) (rest : List Input),
    s.rst = false → s.block.ps = .sleep → s.block.pb.toNat ≤ (s.now - s.block.ts).toNat →
      ((s.now - s.block.t0).toNat ≤ s.block.pt.toNat →
        step { s with inputs := .wake :: rest } =
          .next { s with
            inputs := rest, block := { s.block with ps := .req },
            history := s.history ++ [.request s.block.addr s.block.pn] }) ∧
      (s.block.pt.toNat < (s.now - s.block.t0).toNat →
        step { s with inputs := .wake :: rest } =
          .next { s with inputs := rest, block := { s.block with pto := true, ps := .idle } })

/-- 43_poll.md R169, R170: a round of a poll whose request is answered `answerDelay` milliseconds after `s` with a wrong
count, and whose `wake` comes `latency` milliseconds after it is enabled, ends at an elapsed time larger by
`answerDelay + PB + latency`, across a wrap of the clock too; it times out exactly when that exceeds `PT`, and
otherwise makes the next attempt. -/
def Obligations.AFailedRoundEndsAtItsTrueTime : Prop :=
  ∀ (s : State) (answerDelay latency : Nat) (p : Pins) (events : List Input),
    s.rst = false → s.block.ps = .req → p.rst = false → p.rspValid = true → p.rspCount ≠ s.block.pn →
    (s.now - s.block.t0).toNat + answerDelay + s.block.pb.toNat + latency < 2 ^ 32 →
    events = List.replicate answerDelay .tick ++ [.pins p] ++
      List.replicate (s.block.pb.toNat + latency) .tick ++ [.wake] →
    ∃ u, runSteps events.length { s with inputs := events } = .next u ∧
      (u.now - s.block.t0).toNat =
        (s.now - s.block.t0).toNat + answerDelay + s.block.pb.toNat + latency ∧
      ((u.now - s.block.t0).toNat ≤ s.block.pt.toNat →
        u.block.ps = .req ∧ u.block.pto = s.block.pto ∧
        u.history = s.history ++
          [.response p.rspCount p.rspData, .request s.block.addr s.block.pn]) ∧
      (s.block.pt.toNat < (u.now - s.block.t0).toNat →
        u.block.ps = .idle ∧ u.block.pto = true ∧
        u.history = s.history ++ [.response p.rspCount p.rspData])

/-- 43_poll.md R168: while a poll runs no command is accepted; until a reset `PN`, `PB`, `PT`, `T0` and `ADDR` keep their
values, as do all elements no poll event writes; and without a reset only an exact answer or a `wake` past the
deadline ends it. -/
def Obligations.NothingCancelsAPoll : Prop :=
  ∀ s t : State, s.block.ps ≠ .idle → step s = .next t →
    nextCommand s = none ∧
    (¬resetsNext s →
      t.block.pn = s.block.pn ∧ t.block.pb = s.block.pb ∧ t.block.pt = s.block.pt ∧
      t.block.t0 = s.block.t0 ∧ t.block.addr = s.block.addr ∧ t.block.crc = s.block.crc ∧
      t.block.raw = s.block.raw ∧ t.block.rawv = s.block.rawv ∧ t.block.result = s.block.result ∧
      t.block.crcerr = s.block.crcerr ∧ t.block.cmderr = s.block.cmderr ∧
      (t.block.ps = .idle →
        (∃ d, nextEvent s = some (.respond s.block.pn d)) ∨
        (nextEvent s = some .wake ∧ s.block.pt.toNat < (s.now - s.block.t0).toNat)))

/-- 43_poll.md R172: in the ideal environment a `POLL n, b, t` that is never answered makes `floor(t / b) + 1` attempts,
`b` milliseconds apart from time 0 on, and sets `PTO` at the elapsed time `(floor(t / b) + 1) * b`. -/
def Obligations.IdealFailingPollTimesOut : Prop :=
  ∀ (s : State) (n : BitVec 4) (b : BitVec 3) (t : BitVec 16),
    s.block.ps = .idle → (Instr.poll n b t).wellFormed = true →
    ∀ (k : Nat) (events : List Input), k = t.toNat / b.toNat + 1 →
      events = .pins (commandPins (encode (.poll n b t))) ::
        (List.replicate k (failedRound b.toNat)).flatten →
      ∃ u, runSteps events.length { s with inputs := events } = .next u ∧
        u.block.ps = .idle ∧ u.block.pto = true ∧ u.block.pok = false ∧ u.block.bufcnt = 0#4 ∧
        u.now = s.now + BitVec.ofNat 32 (k * b.toNat) ∧
        u.history = s.history ++
          (List.replicate k [TransportEvent.request s.block.addr n, .response 0#4 0#64]).flatten

/-! ### The machine -/

/-- 30_encoding.md R104 with 20_memory.md R61: a step runs the decoded command. When the block is ready, reset is not
asserted and the word on the command port decodes to `i`, the step is `exec i` with that input taken and the level of `rst` low. -/
def Obligations.StepRunsTheDecodedCommand : Prop :=
  ∀ (s : State) (p : Pins) (rest : List Input) (i : Instr),
    s.block.ps = .idle → p.rst = false → p.cmdValid = true → decode p.cmdWord = .ok i →
      step { s with inputs := .pins p :: rest } = exec i { s with inputs := rest, rst := false }

/-- 30_encoding.md R99, R100: accepting a word that matches no row of R98 sets `CMDERR` and changes nothing else. -/
def Obligations.IllegalWordSetsOnlyCmderr : Prop :=
  ∀ (s : State) (p : Pins) (rest : List Input),
    s.block.ps = .idle → p.rst = false → p.cmdValid = true → ¬legalWord p.cmdWord →
      step { s with inputs := .pins p :: rest } =
        .next { s with inputs := rest, rst := false, block := { s.block with cmderr := true } }

/-- 70_reset_and_hazards.md R264 with 20_memory.md R61: a word presented while a poll runs is not accepted; no flag is
set, nothing is queued. -/
def Obligations.BusyBlockTakesNoWord : Prop :=
  ∀ (s : State) (p : Pins) (rest : List Input),
    (cmdReady s.block = true ↔ s.block.ps = .idle) ∧
    (s.block.ps ≠ .idle → p.rst = false → p.rspValid = false →
      step { s with inputs := .pins p :: rest } = .next { s with inputs := rest, rst := false })

/-- 20_memory.md R62, R65: an instant that only reads, and a response outside `REQ`, change nothing. -/
def Obligations.ReadsAndStrayAnswersChangeNothing : Prop :=
  ∀ (s : State) (p : Pins) (rest : List Input),
    p.rst = false → p.cmdValid = false → p.rspValid = false ∨ s.block.ps ≠ .req →
      step { s with inputs := .pins p :: rest } = .next { s with inputs := rest, rst := false }

/-- 70_reset_and_hazards.md R260, 60_exceptions.md R237: reset wins over every other pin, in any state, sets every element
of the block, emits nothing, and leaves the block ready; and while `rst` stays asserted no input but an instant of the
pins performs an event, so the block, the time and the transport port stay as they are. That time, inputs, history and
the host's data stay is the model's reading (log 4), as is how the level of `rst` is held (log 10). -/
def Obligations.ResetSetsEveryElement : Prop :=
  (∀ (s : State) (p : Pins) (rest : List Input), p.rst = true →
    ∃ u, step { s with inputs := .pins p :: rest } = .next u ∧
      u = { s with
        inputs := rest, rst := true,
        block := {
          crc := 0x00#8, raw := 0x0000#16, rawv := false, result := 0x7FC00000#32, buf := u.block.buf,
          bufcnt := 0#4, addr := 0x40#7, ps := .idle, pn := 0#4, pb := 0#3, pt := 0#16, t0 := 0#32, ts := 0#32,
          pok := false, pto := false, crcerr := false, cmderr := false } } ∧
      (∀ a, Memory.read u.block.buf a = 0x00#8) ∧ cmdReady u.block = true) ∧
  ∀ (s : State) (i : Input) (rest : List Input), s.rst = true → (∀ p, i ≠ .pins p) →
    nextEvent { s with inputs := i :: rest } = none ∧
    ∃ u, step { s with inputs := i :: rest } = .next u ∧
      u.rst = true ∧ u.block = s.block ∧ u.now = s.now ∧ u.history = s.history ∧ u.inputs = rest

/-- 10_state.md R40: the values after reset, as the read port shows them (R37): `STATUS`, `CRC`, `RAW`, `RESULT`, `BUFA`,
`BUFB`, `ADDR`, `POLLCFG`, `T0`, `TS`; and the block is ready. -/
def Obligations.ResetValuesOnTheReadPort : Prop :=
  (List.range 16).map (fun k => readPort State.reset.block (BitVec.ofNat 4 k)) =
    [0#32, 0#32, 0#32, 0x7FC00000#32, 0#32, 0#32, 0x40#32, 0#32, 0#32, 0#32] ++ List.replicate 6 0#32 ∧
  cmdReady State.reset.block = true

/-- 10_state.md R35, R34: the fields of `STATUS`. -/
def Obligations.StatusPacksTheFlags : Prop :=
  ∀ b : Block,
    (readPort b 0#4).getLsbD 0 = decide (b.ps ≠ .idle) ∧ (readPort b 0#4).getLsbD 1 = b.pok ∧
    (readPort b 0#4).getLsbD 2 = b.pto ∧ (readPort b 0#4).getLsbD 3 = b.rawv ∧
    (readPort b 0#4).getLsbD 4 = b.crcerr ∧ (readPort b 0#4).getLsbD 5 = b.cmderr ∧
    (readPort b 0#4).extractLsb' 6 2 = 0#2 ∧ (readPort b 0#4).extractLsb' 8 4 = b.bufcnt ∧
    ((b.ps = .idle → (readPort b 0#4).extractLsb' 12 2 = 0#2) ∧
      (b.ps = .req → (readPort b 0#4).extractLsb' 12 2 = 2#2) ∧
      (b.ps = .sleep → (readPort b 0#4).extractLsb' 12 2 = 3#2)) ∧
    (readPort b 0#4).extractLsb' 14 18 = 0#18

/-- 10_state.md R36, R37; 20_memory.md R68: `POLLCFG`, the buffer words, and the zero-extended and reserved registers. -/
def Obligations.ReadPortPacksTheOtherRegisters : Prop :=
  ∀ b : Block,
    ((readPort b 7#4).extractLsb' 0 16 = b.pt ∧ (readPort b 7#4).extractLsb' 16 3 = b.pb ∧
      (readPort b 7#4).extractLsb' 19 1 = 0#1 ∧ (readPort b 7#4).extractLsb' 20 4 = b.pn ∧
      (readPort b 7#4).extractLsb' 24 8 = 0#8) ∧
    (∀ i, i < 4 → (readPort b 4#4).extractLsb' (24 - 8 * i) 8 = Memory.read b.buf i ∧
      (readPort b 5#4).extractLsb' (24 - 8 * i) 8 = Memory.read b.buf (4 + i)) ∧
    ((readPort b 1#4).toNat = b.crc.toNat ∧ (readPort b 2#4).toNat = b.raw.toNat ∧
      readPort b 3#4 = b.result ∧ (readPort b 6#4).toNat = b.addr.toNat ∧
      readPort b 8#4 = b.t0 ∧ readPort b 9#4 = b.ts) ∧
    ∀ k : BitVec 4, 10 ≤ k.toNat → readPort b k = 0#32

/-- 20_memory.md R66: a `tick` adds 1 modulo `2^32` to `now_ms` and changes nothing else; nothing else changes `now_ms`, a reset among them (log 4). -/
def Obligations.OnlyTicksMoveTheClock : Prop :=
  (∀ (s : State) (rest : List Input), s.rst = false →
    step { s with inputs := .tick :: rest } =
      .next { s with inputs := rest, now := BitVec.ofNat 32 ((s.now.toNat + 1) % 2 ^ 32) }) ∧
  ∀ s t : State, step s = .next t → nextEvent s ≠ some .tick → t.now = s.now

/-- 10_state.md R33: `CMDERR` is 1 after a step exactly when the step is no reset and either it was 1 or the step accepts
a word that matches no row of R98; accepting such a word changes nothing else of the block, the time or the port. -/
def Obligations.CmderrIsStickyUntilReset : Prop :=
  ∀ s t : State, step s = .next t →
    (t.block.cmderr = true ↔
      ¬resetsNext s ∧
        (s.block.cmderr = true ∨ ∃ w, nextEvent s = some (.accept w) ∧ ¬legalWord w)) ∧
    ∀ w, nextEvent s = some (.accept w) → ¬legalWord w →
      t.block = { s.block with cmderr := true } ∧ t.now = s.now ∧ t.history = s.history

/-- 10_state.md R31: what sets and what clears `POK` and `PTO`; they are never both 1. -/
def Obligations.PollEndFlagsFollowTheirEvents : Prop :=
  ∀ s t : State, step s = .next t →
    (t.block.pok = true ↔
      (∃ d, nextEvent s = some (.respond s.block.pn d) ∧ s.block.ps = .req) ∨
      (s.block.pok = true ∧ ¬resetsNext s ∧ nextCommand s ≠ some .clrf ∧
        ∀ n b x, nextCommand s ≠ some (.poll n b x))) ∧
    (t.block.pto = true ↔
      (nextEvent s = some .wake ∧ s.block.ps = .sleep ∧
        s.block.pb.toNat ≤ (s.now - s.block.ts).toNat ∧ s.block.pt.toNat < (s.now - s.block.t0).toNat) ∨
      (s.block.pto = true ∧ ¬resetsNext s ∧ nextCommand s ≠ some .clrf ∧
        ∀ n b x, nextCommand s ≠ some (.poll n b x))) ∧
    (StateInv s → ¬(t.block.pok = true ∧ t.block.pto = true))

/-- 10_state.md R32: what sets and what clears `CRCERR`, and that no `SMP.LD` sets `RAWV` while it is 1. -/
def Obligations.CrcerrFollowsItsEvents : Prop :=
  ∀ s t : State, step s = .next t →
    (t.block.crcerr = true ↔
      (∃ off len, nextCommand s = some (.crcVfy off len) ∧
        ¬(off.toNat + len.toNat + 1 ≤ s.block.bufcnt.toNat ∧
          crc8Compute (readBytes s.block.buf off.toNat len.toNat) =
            Memory.read s.block.buf (off.toNat + len.toNat))) ∨
      (s.block.crcerr = true ∧ ¬resetsNext s ∧ nextCommand s ≠ some .clrf ∧
        ∀ n b x, nextCommand s ≠ some (.poll n b x))) ∧
    (s.block.crcerr = true → ∀ off, nextCommand s = some (.smpLd off) → t.block.rawv = false)

/-- 10_state.md R23: what sets and what clears `RAWV`. -/
def Obligations.RawvFollowsItsEvents : Prop :=
  ∀ s t : State, step s = .next t →
    (t.block.rawv = true ↔
      (∃ x, nextCommand s = some (.smpSet x)) ∨
      (∃ off, nextCommand s = some (.smpLd off) ∧
        off.toNat + 2 ≤ s.block.bufcnt.toNat ∧ s.block.crcerr = false) ∨
      (s.block.rawv = true ∧ ¬resetsNext s ∧ nextCommand s ≠ some .smpInv ∧
        (∀ off, nextCommand s ≠ some (.smpLd off)) ∧ (∀ n b x, nextCommand s ≠ some (.poll n b x)) ∧
        ∀ off len, nextCommand s = some (.crcVfy off len) →
          off.toNat + len.toNat + 1 ≤ s.block.bufcnt.toNat ∧
            crc8Compute (readBytes s.block.buf off.toNat len.toNat) =
              Memory.read s.block.buf (off.toNat + len.toNat)))

/-- 10_state.md R20, the column "written by", for all seventeen elements: a step that is no reset and none of the named events leaves the element as it was. -/
def Obligations.EveryElementHasOnlyItsWriters : Prop :=
  ∀ s t : State, step s = .next t → ¬resetsNext s →
    (t.block.crc = s.block.crc ∨ nextCommand s = some .crcClr ∨ (∃ x, nextCommand s = some (.crcByte x)) ∨
      (∃ o l, nextCommand s = some (.crcBuf o l)) ∨ ∃ o l, nextCommand s = some (.crcVfy o l)) ∧
    (t.block.raw = s.block.raw ∨ (∃ x, nextCommand s = some (.smpSet x)) ∨
      ∃ o, nextCommand s = some (.smpLd o)) ∧
    (t.block.result = s.block.result ∨ nextCommand s = some .decRh ∨ nextCommand s = some .decT) ∧
    (t.block.addr = s.block.addr ∨ ∃ x, nextCommand s = some (.cfgAddr x)) ∧
    ((t.block.pn = s.block.pn ∧ t.block.pb = s.block.pb ∧ t.block.pt = s.block.pt ∧
      t.block.t0 = s.block.t0) ∨ ∃ n b x, nextCommand s = some (.poll n b x)) ∧
    (t.block.ts = s.block.ts ∨ ∃ c d, nextEvent s = some (.respond c d) ∧ c ≠ s.block.pn) ∧
    ((t.block.buf = s.block.buf ∧ t.block.bufcnt = s.block.bufcnt) ∨
      (∃ n b x, nextCommand s = some (.poll n b x)) ∨
      ∃ d, nextEvent s = some (.respond s.block.pn d)) ∧
    (t.block.ps = s.block.ps ∨ (∃ n b x, nextCommand s = some (.poll n b x)) ∨
      (∃ c d, nextEvent s = some (.respond c d)) ∨ nextEvent s = some .wake) ∧
    (t.block.rawv = s.block.rawv ∨ (∃ x, nextCommand s = some (.smpSet x)) ∨
      (∃ o, nextCommand s = some (.smpLd o)) ∨ nextCommand s = some .smpInv ∨
      (∃ o l, nextCommand s = some (.crcVfy o l)) ∨ ∃ n b x, nextCommand s = some (.poll n b x)) ∧
    (t.block.pok = s.block.pok ∨ (∃ n b x, nextCommand s = some (.poll n b x)) ∨
      (∃ d, nextEvent s = some (.respond s.block.pn d)) ∨ nextCommand s = some .clrf) ∧
    (t.block.pto = s.block.pto ∨ (∃ n b x, nextCommand s = some (.poll n b x)) ∨
      (nextEvent s = some .wake ∧ s.block.pt.toNat < (s.now - s.block.t0).toNat) ∨
      nextCommand s = some .clrf) ∧
    (t.block.crcerr = s.block.crcerr ∨ (∃ o l, nextCommand s = some (.crcVfy o l)) ∨
      (∃ n b x, nextCommand s = some (.poll n b x)) ∨ nextCommand s = some .clrf) ∧
    (t.block.cmderr = s.block.cmderr ∨ ∃ w, nextEvent s = some (.accept w) ∧ ¬legalWord w)

/-- 10_state.md R41 (a) to (f) with 60_exceptions.md R230: every step ends in a next state, no failure stops the block,
and it keeps the invariants; and R41 (g), an `SMP.LD` that leaves `RAWV == 1` found `CRCERR == 0`. That the buffer
keeps its canonical form is the model's own clause (log 7); that the block is at its reset values as long as `rst` is
asserted is 70_reset_and_hazards.md R260. -/
def Obligations.EveryStepCompletesAndKeepsTheInvariants : Prop :=
  ∀ s : State, ∃ t, step s = .next t ∧ (StateInv s → StateInv t) ∧
    ∀ off, nextCommand s = some (.smpLd off) → t.block.rawv = true → s.block.crcerr = false

/-- 10_state.md R41 at reset. -/
def Obligations.InvariantsHoldAtReset : Prop := StateInv State.reset ∧ OutstandingInv State.reset

/-- 10_state.md R42: every step keeps the request `(ADDR, PN)` the last thing on the transport port while `PS == REQ`. -/
def Obligations.EveryStepKeepsTheOutstandingRequest : Prop :=
  ∀ s t : State, OutstandingInv s → step s = .next t → OutstandingInv t

/-- 20_memory.md R72 (c): a step emits at most one request, never while one is outstanding, always `(ADDR, PN)`, and it
enters `REQ` by it; what the port has seen is never rewritten. -/
def Obligations.RequestsAreMadeOneAtATime : Prop :=
  ∀ s t : State, step s = .next t →
    t.history = s.history ∨
    (∃ c d, t.history = s.history ++ [.response c d] ∧ s.block.ps = .req ∧ t.block.ps ≠ .req) ∨
    (t.history = s.history ++ [.request t.block.addr t.block.pn] ∧ s.block.ps ≠ .req ∧ t.block.ps = .req)

/-! ### Encoding -/

/-- 30_encoding.md R98, R99, R104: the decoder accepts exactly the words that match a row and meet its constraint. -/
def Obligations.DecoderAcceptsExactlyTheLegalWords : Prop :=
  ∀ w : Word, (∃ i, decode w = .ok i) ↔ legalWord w

/-- 30_encoding.md R90 to R98: decode of encode is the instruction, for every well-formed instruction. -/
def Obligations.DecodeOfEncodeIsTheInstruction : Prop :=
  ∀ i : Instr, i.wellFormed = true → decode (encode i) = .ok i

/-- 30_encoding.md R90, R97, R98: a word that decodes is the encoding of what it decodes to, so no bit of it is ignored
and each command has one word. -/
def Obligations.DecodedWordIsTheEncoding : Prop :=
  ∀ (w : Word) (i : Instr), decode w = .ok i → i.wellFormed = true ∧ encode i = w

/-- 30_encoding.md, worked encodings of section 3. -/
def Obligations.WorkedEncodingsDecode : Prop :=
  decode 0x02000040#32 = .ok (.cfgAddr 0x40#7) ∧ decode 0x11000031#32 = .ok (.crcByte 0x31#8) ∧
  decode 0x13000032#32 = .ok (.crcVfy 3#4 2#4) ∧ decode 0x20006372#32 = .ok (.smpSet 0x6372#16) ∧
  decode 0x21000030#32 = .ok (.smpLd 3#4) ∧ decode 0x308203E8#32 = .ok (.poll 8#4 2#3 1000#16)

/-! ### The host software at the block's boundary -/

/-- 48_host_sequences.md R213: the classification table, total on bytes. -/
def Obligations.ClassifyIsTheTable : Prop :=
  classify 0x00#8 = .engineeringSample ∧ classify 0xFF#8 = .engineeringSample ∧
  classify 0x01#8 = .compatibleSHT25 ∧ classify 0x0D#8 = .model7013 ∧ classify 0x14#8 = .model7020 ∧
  classify 0x15#8 = .model7021 ∧
  ∀ m : Byte, m ∉ [0x00#8, 0xFF#8, 0x01#8, 0x0D#8, 0x14#8, 0x15#8] → classify m = .unknown

/-- 48_host_sequences.md R217, R209, R210: a measurement whose triggering write is not acknowledged, whatever the status,
returns the sentinel with no request on the transport port and no formula evaluated. The sequences as actions: log 15;
that the host goes by `SMP.INV` and the decode command: log 26. -/
def Obligations.UnacknowledgedMeasurementIsTheSentinel : Prop :=
  ∀ (s : State) (c : FacadeCall) (status : Nat),
    (c = .readHumidity ∨ c = .readTemperature) → s.rst = false → s.block.ps = .idle →
      s.host.code = [] → status ≠ 0 →
      ∃ t, runSteps 7 { s with inputs := [.call c, .host, .writeStatus status, .host, .host, .host, .host] } =
          .next t ∧
        t.host.result = .reading 0x7FC00000#32 ∧ t.host.code = [] ∧ t.history = s.history ∧
        t.block = { s.block with rawv := false, result := 0x7FC00000#32 }

/-- 48_host_sequences.md R209, R210: after its poll has ended a measurement returns, without looking at `POK`, the decoded sample
when the three bytes came and verify, and the sentinel when the poll timed out or they do not verify. The code as actions
is the model's (log 15). -/
def Obligations.MeasurementReturnsTheDecodedSample : Prop :=
  ∀ (s : State) (sensorCommand : Byte) (dec : Instr) (formula : Half → Word),
    (dec = .decRh ∧ formula = decodeHumidity) ∨ (dec = .decT ∧ formula = decodeTemperature) →
    s.rst = false → s.block.ps = .idle → s.block.crcerr = false →
    s.host.code = (measureCode sensorCommand dec).drop 2 →
    ∃ t, runSteps 5 { s with inputs := List.replicate 5 .host } = .next t ∧ t.host.code = [] ∧
      (3 ≤ s.block.bufcnt.toNat ∧
          crc8Compute [Memory.read s.block.buf 0, Memory.read s.block.buf 1] = Memory.read s.block.buf 2 →
        t.host.result = .reading (formula (Memory.read s.block.buf 0 ++ Memory.read s.block.buf 1))) ∧
      (¬(3 ≤ s.block.bufcnt.toNat ∧
          crc8Compute [Memory.read s.block.buf 0, Memory.read s.block.buf 1] = Memory.read s.block.buf 2) →
        t.host.result = .reading 0x7FC00000#32)

/-- 48_host_sequences.md R204, R211 to R215: each identity field changes only at the action that the sequences have for it,
so a sequence that returns early leaves the fields after that place as they were (R214); and either half of the serial
number, and the classification, changes only while it has not been populated, and is populated by that change, so once
populated it never changes again. The actions are the model's (log 15), as are the marks of what has been populated
(log 27). -/
def Obligations.IdentityFieldsChangeOnlyAtTheirActions : Prop :=
  ∀ s t : State, step s = .next t →
    ((t.host.session.serialHigh = s.host.session.serialHigh ∧
        t.host.session.serialHighPopulated = s.host.session.serialHighPopulated) ∨
      (s.host.code.head? = some .setSerialHigh ∧
        s.host.session.serialHighPopulated = false ∧ t.host.session.serialHighPopulated = true)) ∧
    ((t.host.session.serialLow = s.host.session.serialLow ∧
        t.host.session.serialLowPopulated = s.host.session.serialLowPopulated) ∨
      (s.host.code.head? = some .setSerialLow ∧
        s.host.session.serialLowPopulated = false ∧ t.host.session.serialLowPopulated = true)) ∧
    ((t.host.session.model = s.host.session.model ∧
        t.host.session.modelPopulated = s.host.session.modelPopulated) ∨
      (s.host.code.head? = some .classifyModel ∧
        s.host.session.modelPopulated = false ∧ t.host.session.modelPopulated = true)) ∧
    (t.host.session.firmware = s.host.session.firmware ∨ s.host.code.head? = some .setFirmware ∨
      s.host.code.head? = some .clearFirmware)

/-- 70_reset_and_hazards.md R268, 48_host_sequences.md R200: the host software makes no bus write while a poll runs, and
every write it makes goes to the address `ADDR`. That the host acts only while the block is ready: log 15. -/
def Obligations.HostWritesOnlyWhileNoPollRuns : Prop :=
  ∀ s t : State, step s = .next t →
    t.host.writes = s.host.writes ∨
    ∃ bytes, t.host.writes = s.host.writes ++ [⟨s.block.addr, bytes, Config.sendStop⟩] ∧
      s.block.ps = .idle ∧ s.rst = false ∧ ∃ l, s.host.code.head? = some (.send bytes l)

/-- 48_host_sequences.md R208, R207: `initialize()` returns false, after the settle delay and with no request made, when
the sensor does not acknowledge the reset write; and when the user register reads back another value than 0x3A. That it
sleeps after a NAK too is log 18; the code as actions is the model's (log 15). -/
def Obligations.InitializeReportsAMissingSensor : Prop :=
  (∀ (s : State) (status : Nat), s.rst = false → s.block.ps = .idle → s.host.code = [] → status ≠ 0 →
    ∀ events : List Input,
      events = [.call .initialise, .host, .writeStatus status, .host] ++ List.replicate 50 .tick ++
        [.host, .host, .host] →
      ∃ t, runSteps events.length { s with inputs := events } = .next t ∧
        t.host.result = .bool false ∧ t.host.code = [] ∧ t.block = s.block ∧ t.history = s.history ∧
        t.host.session = s.host.session) ∧
  ∀ s : State, s.rst = false → s.block.ps = .idle → s.host.code = initializeCode.drop 10 →
    Memory.read s.block.buf 0 ≠ 0x3A#8 →
    ∃ t, runSteps 2 { s with inputs := [.host, .host] } = .next t ∧
      t.host.result = .bool false ∧ t.host.code = [] ∧ t.host.session = s.host.session

/-- 48_host_sequences.md R214, R211, R212: the resolver returns early, with the identity fields as they are, when either
serial-number poll timed out and when a group of either read does not verify. The code as actions is the model's
(log 15). -/
def Obligations.ResolverReturnsEarly : Prop :=
  ∀ (s : State) (k : Nat), s.rst = false → s.block.ps = .idle →
    s.host.code = resolveCode.drop k ++ [.ret .done] →
    ((k = 2 ∨ k = 11) ∧ s.block.pok = false) ∨ ((k = 7 ∨ k = 14) ∧ s.block.crcerr = true) →
    ∃ t, runSteps 2 { s with inputs := [.host, .host] } = .next t ∧
      t.host.result = .done ∧ t.host.code = [] ∧ t.host.session = s.host.session ∧ t.block = s.block

/-- 48_host_sequences.md R211, R212, R213, R215: how the identity fields are assembled from the buffer, big-endian, the
checksum bytes left out, and the revision mapping; a field populated before keeps its value instead (R204). The actions
and the marks of what has been populated are the model's (log 15, log 27). -/
def Obligations.IdentityFieldsAreAssembledFromTheBuffer : Prop :=
  ∀ (s : State) (rest : List HostAction), s.block.ps = .idle →
    (s.host.code = .setSerialHigh :: rest →
      ∃ t, hostStep s = .next t ∧ t.host.code = rest ∧
        (s.host.session.serialHighPopulated = false → t.host.session = { s.host.session with
          serialHigh := Memory.read s.block.buf 0 ++ Memory.read s.block.buf 2 ++
            Memory.read s.block.buf 4 ++ Memory.read s.block.buf 6,
          serialHighPopulated := true }) ∧
        (s.host.session.serialHighPopulated = true → t.host.session = s.host.session)) ∧
    (s.host.code = .setSerialLow :: rest →
      ∃ t, hostStep s = .next t ∧ t.host.code = rest ∧
        (s.host.session.serialLowPopulated = false → t.host.session = { s.host.session with
          serialLow := Memory.read s.block.buf 0 ++ Memory.read s.block.buf 1 ++
            Memory.read s.block.buf 3 ++ Memory.read s.block.buf 4,
          serialLowPopulated := true }) ∧
        (s.host.session.serialLowPopulated = true → t.host.session = s.host.session)) ∧
    (s.host.code = .classifyModel :: rest →
      ∃ t, hostStep s = .next t ∧ t.host.code = rest ∧
        (s.host.session.modelPopulated = false → t.host.session = { s.host.session with
          model := classify (s.host.session.serialLow.extractLsb' 24 8),
          modelPopulated := true }) ∧
        (s.host.session.modelPopulated = true → t.host.session = s.host.session)) ∧
    (s.host.code = .setFirmware :: rest →
      ∃ t, hostStep s = .next t ∧ t.host.code = rest ∧
        t.host.session = { s.host.session with firmware := t.host.session.firmware } ∧
        (Memory.read s.block.buf 0 = 0xFF#8 → t.host.session.firmware = 1#8) ∧
        (Memory.read s.block.buf 0 = 0x20#8 → t.host.session.firmware = 2#8) ∧
        (Memory.read s.block.buf 0 ≠ 0xFF#8 → Memory.read s.block.buf 0 ≠ 0x20#8 →
          t.host.session.firmware = Memory.read s.block.buf 0))
end

