-- ==== Sys2Proof/Laws/Binary32.lean ====
section
/-! SUPPORT. Rounding as rational arithmetic: what `f32` and the operations over it do, said once over the rationals
(42_decode.md R141), so that no proof about the formulas unfolds them. -/

namespace Sys2Proof.Laws

open Sys2Proof.Machine

/-- The rational number a fraction stands for. -/
def fracVal (x : Frac) : ℚ := (x.num : ℚ) / (x.den : ℚ)

theorem fracVal_mul (x y : Frac) : fracVal (fracMul x y) = fracVal x * fracVal y := by
  simp only [fracVal, fracMul]; push_cast; rw [div_mul_div_comm]

theorem fracVal_sub {x y : Frac} (hx : 0 < x.den) (hy : 0 < y.den) :
    fracVal (fracSub x y) = fracVal x - fracVal y := by
  have hx' : (x.den : ℚ) ≠ 0 := by positivity
  have hy' : (y.den : ℚ) ≠ 0 := by positivity
  simp only [fracVal, fracSub]; push_cast; rw [div_sub_div _ _ hx' hy']; ring

theorem fracVal_div {x y : Frac} (hy : 0 < y.num) :
    fracVal (fracDiv x y) = fracVal x / fracVal y := by
  have h : ((y.num.toNat : ℤ)) = y.num := Int.toNat_of_nonneg hy.le
  have h' : ((y.num.toNat : ℕ) : ℚ) = (y.num : ℚ) := by exact_mod_cast congrArg (Int.cast : ℤ → ℚ) h
  simp only [fracVal, fracDiv]; push_cast; rw [h', div_div_div_eq]

theorem fracLt_iff {x y : Frac} (hx : 0 < x.den) (hy : 0 < y.den) :
    fracLt x y = true ↔ fracVal x < fracVal y := by
  have hx' : (0 : ℚ) < x.den := by exact_mod_cast hx
  have hy' : (0 : ℚ) < y.den := by exact_mod_cast hy
  simp only [fracLt, fracVal, decide_eq_true_eq, div_lt_div_iff₀ hx' hy']
  exact_mod_cast Iff.rfl

theorem f32Value_den_pos (v : Word) : 0 < (f32Value v).den := by
  simp only [f32Value, apply_ite Frac.den]
  repeat' split
  all_goals positivity

/-- The value of a datum in the normal range. -/
theorem f32Value_val {v : Word} (he : (v.extractLsb' 23 8).toNat ≠ 0) :
    fracVal (f32Value v) = (if v.getLsbD 31 then -1 else 1) *
      (2 ^ 23 + (v.extractLsb' 0 23).toNat : ℚ) * (2 : ℚ) ^ (((v.extractLsb' 23 8).toNat : ℤ) - 150) := by
  generalize hE : (v.extractLsb' 23 8).toNat = e at *
  generalize hF : (v.extractLsb' 0 23).toNat = f at *
  simp only [f32Value, hE, hF, he, if_false]
  by_cases h : 150 ≤ e
  · rw [if_pos h]
    obtain ⟨k, rfl⟩ := Nat.exists_eq_add_of_le h
    have : ((150 + k : ℕ) : ℤ) - 150 = (k : ℕ) := by push_cast; ring
    rw [this, zpow_natCast]
    simp only [fracVal, Nat.add_sub_cancel_left]
    split <;> (push_cast; ring)
  · rw [if_neg h]
    have : ((e : ℕ) : ℤ) - 150 = -((150 - e : ℕ) : ℤ) := by omega
    rw [this, zpow_neg, zpow_natCast]
    simp only [fracVal]
    split <;> (push_cast; rw [div_eq_mul_inv]; ring)

theorem roundHalfEven_mul {d : Nat} (hd : 0 < d) (k : Nat) : roundHalfEven (k * d) d = k := by
  have : 0 ≠ d := hd.ne
  simp [roundHalfEven, hd, this]

/-- Rounding is to within one half. -/
theorem roundHalfEven_bounds {d : Nat} (hd : 0 < d) (a : Nat) :
    2 * a ≤ 2 * (roundHalfEven a d * d) + d ∧ 2 * (roundHalfEven a d * d) ≤ 2 * a + d := by
  have h := Nat.div_add_mod a d
  have hm := Nat.mod_lt a hd
  have hc : d * (a / d) = (a / d) * d := Nat.mul_comm _ _
  simp only [roundHalfEven]
  split
  · rw [Nat.add_mul]; omega
  · omega

theorem floorLog2_spec {a d : Nat} (ha : 0 < a) (hd : 0 < d) :
    (2 : ℚ) ^ floorLog2 a d * d ≤ a ∧ (a : ℚ) < (2 : ℚ) ^ (floorLog2 a d + 1) * d := by
  have a1 := Nat.log2_self_le ha.ne'
  have a2 := Nat.lt_log2_self (n := a)
  have d1 := Nat.log2_self_le hd.ne'
  have d2 := Nat.lt_log2_self (n := d)
  have h2 : (2 : ℚ) ≠ 0 := by norm_num
  simp only [floorLog2]
  generalize a.log2 = la at *
  generalize d.log2 = ld at *
  split
  · next hle =>
    obtain ⟨k, rfl⟩ := Nat.exists_eq_add_of_le hle
    simp only [Nat.add_sub_cancel_left]
    have up : a < 2 ^ (k + 1) * d := by
      calc a < 2 ^ (ld + k + 1) := a2
        _ = 2 ^ (k + 1) * 2 ^ ld := by ring
        _ ≤ _ := Nat.mul_le_mul_left _ d1
    have lo : 2 ^ k * d < 2 * a := by
      calc 2 ^ k * d < 2 ^ k * 2 ^ (ld + 1) := by gcongr
        _ = 2 * 2 ^ (ld + k) := by ring
        _ ≤ _ := Nat.mul_le_mul_left _ a1
    split
    · next hk =>
      constructor
      · rw [zpow_natCast]; rw [Nat.mul_comm] at hk; exact_mod_cast hk
      · rw [show ((k : ℤ) + 1) = ((k + 1 : ℕ) : ℤ) by push_cast; ring, zpow_natCast]; exact_mod_cast up
    · next hk =>
      constructor
      · rw [zpow_sub₀ h2, zpow_natCast, zpow_one]
        have : (2 : ℚ) ^ k * d < 2 * a := by exact_mod_cast lo
        linarith
      · rw [show ((k : ℤ) - 1 + 1) = (k : ℤ) by ring, zpow_natCast]
        rw [Nat.mul_comm] at hk; exact_mod_cast (not_le.mp hk)
  · next hlt =>
    obtain ⟨k, rfl⟩ := Nat.exists_eq_add_of_le (not_le.mp hlt).le
    simp only [Nat.add_sub_cancel_left]
    have up : a * 2 ^ k < 2 * d := by
      calc a * 2 ^ k < 2 ^ (la + 1) * 2 ^ k := by gcongr
        _ = 2 * 2 ^ (la + k) := by ring
        _ ≤ _ := Nat.mul_le_mul_left _ d1
    have lo : d < 2 * (a * 2 ^ k) := by
      calc d < 2 ^ (la + k + 1) := d2
        _ = 2 * (2 ^ la * 2 ^ k) := by ring
        _ ≤ _ := by gcongr
    have hp : (0 : ℚ) < 2 ^ k := by positivity
    split
    · next hk =>
      constructor
      · rw [zpow_neg, zpow_natCast, inv_mul_le_iff₀ hp, mul_comm]; exact_mod_cast hk
      · rw [zpow_add₀ h2, zpow_neg, zpow_natCast, zpow_one, mul_assoc, lt_inv_mul_iff₀ hp, mul_comm]
        exact_mod_cast up
    · next hk =>
      constructor
      · rw [zpow_sub₀ h2, zpow_neg, zpow_natCast, zpow_one, div_mul_eq_mul_div, div_le_iff₀ (by norm_num),
          inv_mul_le_iff₀ hp]
        have : (d : ℚ) < 2 * (a * 2 ^ k) := by exact_mod_cast lo
        linarith
      · rw [show (-(k : ℤ) - 1 + 1) = -(k : ℤ) by ring, zpow_neg, zpow_natCast, lt_inv_mul_iff₀ hp, mul_comm]
        exact_mod_cast (not_le.mp hk)

theorem roundHalfEven_scale {c : Nat} (hc : 0 < c) (a d : Nat) :
    roundHalfEven (a * c) (d * c) = roundHalfEven a d := by
  have h1 : d * c < 2 * (a % d * c) ↔ d < 2 * (a % d) := by
    rw [← Nat.mul_assoc]; exact Nat.mul_lt_mul_right hc
  have h2 : 2 * (a % d * c) = d * c ↔ 2 * (a % d) = d := by
    rw [← Nat.mul_assoc]; exact Nat.mul_left_inj hc.ne'
  simp only [roundHalfEven, Nat.mul_mod_mul_right, Nat.mul_div_mul_right _ _ hc, h1, h2]

/-- `roundHalfEven` depends only on the quotient. -/
theorem roundHalfEven_congr {a d a' d' : Nat} (hd : 0 < d) (hd' : 0 < d') (h : a * d' = a' * d) :
    roundHalfEven a d = roundHalfEven a' d' := by
  rw [← roundHalfEven_scale hd' a d, ← roundHalfEven_scale hd a' d', h, Nat.mul_comm d d']

/-- `significand` rounds `(a / d) * 2^(23 - e)`. -/
theorem significand_eq {a d : Nat} (hd : 0 < d) (e : Int) :
    ∃ a' d' : Nat, 0 < d' ∧ significand a d e = roundHalfEven a' d' ∧
      (a' : ℚ) = (a : ℚ) / d * (2 : ℚ) ^ (23 - e) * d' := by
  have hd' : (d : ℚ) ≠ 0 := by positivity
  simp only [significand]
  split
  · next h =>
    refine ⟨_, _, hd, rfl, ?_⟩
    have : (23 - e) = ((23 - e).toNat : ℤ) := by omega
    rw [this, zpow_natCast, Int.toNat_natCast]
    push_cast; field_simp
  · next h =>
    refine ⟨_, d * 2 ^ (e - 23).toNat, by positivity, rfl, ?_⟩
    have : (23 - e) = -((e - 23).toNat : ℤ) := by omega
    rw [this, zpow_neg, zpow_natCast]
    push_cast; field_simp

theorem roundHalfEven_range {a d lo hi : Nat} (hd : 0 < d) (h1 : lo * d ≤ a) (h2 : a < hi * d) :
    lo ≤ roundHalfEven a d ∧ roundHalfEven a d ≤ hi := by
  have := (Nat.le_div_iff_mul_le hd).mpr h1
  have := (Nat.div_lt_iff_lt_mul hd).mpr h2
  simp only [roundHalfEven]
  split <;> omega

theorem significand_bounds {a d : Nat} (ha : 0 < a) (hd : 0 < d) :
    2 ^ 23 ≤ significand a d (floorLog2 a d) ∧ significand a d (floorLog2 a d) ≤ 2 ^ 24 := by
  obtain ⟨lo, up⟩ := floorLog2_spec ha hd
  obtain ⟨a', d', hd', hs, hv⟩ := significand_eq (a := a) hd (floorLog2 a d)
  generalize floorLog2 a d = e at *
  have hdq : (0 : ℚ) < d := by exact_mod_cast hd
  have hdq' : (0 : ℚ) < d' := by exact_mod_cast hd'
  have hp : (0 : ℚ) < (2 : ℚ) ^ (23 - e) := by positivity
  have e1 : (2 : ℚ) ^ e * (2 : ℚ) ^ (23 - e) = 2 ^ 23 := by
    rw [← zpow_add₀ (by norm_num)]; norm_num
  have e2 : (2 : ℚ) ^ (e + 1) * (2 : ℚ) ^ (23 - e) = 2 ^ 24 := by
    rw [← zpow_add₀ (by norm_num), show e + 1 + (23 - e) = 24 by ring]; norm_num
  rw [hs]
  refine roundHalfEven_range hd' ?_ ?_
  · have : (2 : ℚ) ^ 23 * d' ≤ a' := by
      rw [hv, ← e1]; gcongr; rwa [le_div_iff₀ hdq]
    exact_mod_cast this
  · have : (a' : ℚ) < 2 ^ 24 * d' := by
      rw [hv, ← e2]; gcongr; rwa [div_lt_iff₀ hdq]
    exact_mod_cast this

/-- The datum `f32 q` is a normal one, its sign is that of `q`, and its value is the rounded significand at the exponent
of `q`, whether or not the significand was renormalised. -/
theorem f32_val {q : Frac} (hn : q.num ≠ 0) (hd : 0 < q.den)
    (h1 : -126 ≤ floorLog2 q.num.natAbs q.den) (h2 : floorLog2 q.num.natAbs q.den ≤ 126) :
    (1 ≤ ((f32 q).extractLsb' 23 8).toNat ∧ ((f32 q).extractLsb' 23 8).toNat ≤ 254) ∧
    fracVal (f32Value (f32 q)) = (if q.num < 0 then -1 else 1) *
      (significand q.num.natAbs q.den (floorLog2 q.num.natAbs q.den) : ℚ) *
        (2 : ℚ) ^ (floorLog2 q.num.natAbs q.den - 23) := by
  obtain ⟨lo, hi⟩ := significand_bounds (Int.natAbs_pos.mpr hn) hd
  have key : ∀ (sg : Bool) (e' : Int) (m' : Nat), -126 ≤ e' → e' ≤ 127 → 2 ^ 23 ≤ m' → m' < 2 ^ 24 →
      ∀ v : Word, v = BitVec.ofBool sg ++ BitVec.ofInt 8 (e' + 127) ++ BitVec.ofNat 23 (m' - 2 ^ 23) →
      (1 ≤ (v.extractLsb' 23 8).toNat ∧ (v.extractLsb' 23 8).toNat ≤ 254) ∧
      fracVal (f32Value v) = (if sg then -1 else 1) * (m' : ℚ) * (2 : ℚ) ^ (e' - 23) := by
    intro sg e' m' he1 he2 hm1 hm2 v hv
    have x : v.extractLsb' 23 8 = BitVec.ofInt 8 (e' + 127) := by
      subst hv
      apply BitVec.eq_of_getLsbD_eq; intro i hi
      simp only [BitVec.getLsbD_extractLsb', BitVec.getLsbD_append]
      interval_cases i <;> simp
    have f : v.extractLsb' 0 23 = BitVec.ofNat 23 (m' - 2 ^ 23) := by
      subst hv
      apply BitVec.eq_of_getLsbD_eq; intro i hi
      simp only [BitVec.getLsbD_extractLsb', BitVec.getLsbD_append]
      interval_cases i <;> simp
    have g : v.getLsbD 31 = sg := by
      subst hv; simp only [BitVec.getLsbD_append]; simp
    have x' : ((v.extractLsb' 23 8).toNat : ℤ) = e' + 127 := by
      rw [x, BitVec.toNat_ofInt]; omega
    have f' : (v.extractLsb' 0 23).toNat = m' - 2 ^ 23 := by
      rw [f, BitVec.toNat_ofNat]; omega
    refine ⟨by omega, ?_⟩
    rw [f32Value_val (by omega), x', f', g, show e' + 127 - 150 = e' - 23 by ring,
      Nat.cast_sub hm1]
    push_cast; ring
  have hq : f32 q =
      BitVec.ofBool (decide (q.num < 0)) ++
        BitVec.ofInt 8 ((if significand q.num.natAbs q.den (floorLog2 q.num.natAbs q.den) = 2 ^ 24 then
          floorLog2 q.num.natAbs q.den + 1 else floorLog2 q.num.natAbs q.den) + 127) ++
        BitVec.ofNat 23 ((if significand q.num.natAbs q.den (floorLog2 q.num.natAbs q.den) = 2 ^ 24 then 2 ^ 23
          else significand q.num.natAbs q.den (floorLog2 q.num.natAbs q.den)) - 2 ^ 23) := by
    simp only [f32, hn, if_false]
  generalize floorLog2 q.num.natAbs q.den = e at *
  generalize hm : significand q.num.natAbs q.den e = m at *
  by_cases h : m = 2 ^ 24
  · obtain ⟨r1, r2⟩ := key (decide (q.num < 0)) (e + 1) (2 ^ 23) (by omega) (by omega) le_rfl (by norm_num) (f32 q)
      (by rw [hq, if_pos h, if_pos h])
    refine ⟨r1, r2.trans ?_⟩
    have : (2 : ℚ) ^ (e + 1 - 23) = 2 * (2 : ℚ) ^ (e - 23) := by
      rw [show e + 1 - 23 = e - 23 + 1 by ring, zpow_add_one₀ (by norm_num)]; ring
    rw [this, h]; simp only [decide_eq_true_eq]; push_cast; ring
  · obtain ⟨r1, r2⟩ := key (decide (q.num < 0)) e m (by omega) (by omega) lo (by omega) (f32 q)
      (by rw [hq, if_neg h, if_neg h])
    exact ⟨r1, r2.trans (by simp only [decide_eq_true_eq])⟩

theorem two_zpow_lt {a b : Int} : (2 : ℚ) ^ a < (2 : ℚ) ^ b ↔ a < b := zpow_lt_zpow_iff_right₀ (by norm_num)

theorem abs_fracVal {q : Frac} : |fracVal q| = (q.num.natAbs : ℚ) / q.den := by
  rw [fracVal, abs_div, Nat.abs_cast, Nat.cast_natAbs, Int.cast_abs]

theorem fracVal_eq_sign (q : Frac) : fracVal q = (if q.num < 0 then -1 else 1) * |fracVal q| := by
  rw [abs_fracVal, fracVal]
  split
  · next h =>
    have : (q.num.natAbs : ℚ) = -q.num := by rw [Nat.cast_natAbs, abs_of_neg h]; push_cast; ring
    rw [this]; ring
  · next h =>
    have : (q.num.natAbs : ℚ) = q.num := by rw [Nat.cast_natAbs, abs_of_nonneg (not_lt.mp h)]
    rw [this]; ring

/-- The exponent of a number is bounded by the powers of two around it. -/
theorem floorLog2_range {a d : Nat} (ha : 0 < a) (hd : 0 < d) {l u : Int}
    (h1 : (2 : ℚ) ^ l ≤ (a : ℚ) / d) (h2 : (a : ℚ) / d < (2 : ℚ) ^ u) :
    l ≤ floorLog2 a d ∧ floorLog2 a d < u := by
  obtain ⟨lo, up⟩ := floorLog2_spec ha hd
  have hdq : (0 : ℚ) < d := by exact_mod_cast hd
  rw [← le_div_iff₀ hdq] at lo
  rw [← div_lt_iff₀ hdq] at up
  have := two_zpow_lt.mp (h1.trans_lt up)
  have := two_zpow_lt.mp (lo.trans_lt h2)
  omega

/-- `f32` of a number with at most 24 significant bits, in the normal range, is exact. -/
theorem f32_exact {q : Frac} (hd : 0 < q.den) {n : Nat} {k : Int} (hn : n < 2 ^ 24)
    (hv : |fracVal q| = n * (2 : ℚ) ^ k)
    (h1 : (2 : ℚ) ^ (-126 : ℤ) ≤ |fracVal q|) (h2 : |fracVal q| < (2 : ℚ) ^ (127 : ℤ)) :
    fracVal (f32Value (f32 q)) = fracVal q := by
  have pos : 0 < |fracVal q| := lt_of_lt_of_le (by positivity) h1
  have hnum : q.num ≠ 0 := by
    intro h; rw [abs_fracVal, h] at pos; simp at pos
  have ha : 0 < q.num.natAbs := Int.natAbs_pos.mpr hnum
  rw [abs_fracVal] at h1 h2
  obtain ⟨r1, r2⟩ := floorLog2_range ha hd h1 h2
  rw [(f32_val hnum hd r1 (by omega)).2, fracVal_eq_sign q, mul_assoc]
  congr 1
  obtain ⟨lo, up⟩ := floorLog2_spec ha hd
  obtain ⟨a', d', hd', hs, hv'⟩ := significand_eq (a := q.num.natAbs) hd (floorLog2 q.num.natAbs q.den)
  generalize floorLog2 q.num.natAbs q.den = e at *
  have hdq : (0 : ℚ) < q.den := by exact_mod_cast hd
  rw [← le_div_iff₀ hdq, ← abs_fracVal, hv] at lo
  have hk : e < 24 + k := by
    apply two_zpow_lt.mp
    calc (2 : ℚ) ^ e ≤ n * (2 : ℚ) ^ k := lo
      _ < 2 ^ 24 * (2 : ℚ) ^ k := by gcongr; exact_mod_cast hn
      _ = _ := by rw [zpow_add₀ (by norm_num)]; norm_num
  obtain ⟨j, hj⟩ : ∃ j : ℕ, k + (23 - e) = (j : ℤ) := ⟨(k + (23 - e)).toNat, by omega⟩
  have ha' : a' = n * 2 ^ j * d' := by
    rw [← abs_fracVal, hv, mul_assoc (n : ℚ), ← zpow_add₀ (by norm_num), hj, zpow_natCast] at hv'
    exact_mod_cast hv'
  rw [hs, ha', roundHalfEven_mul hd', hv]
  push_cast
  rw [mul_assoc, ← zpow_natCast, ← hj, ← zpow_add₀ (by norm_num)]
  congr 2; ring

/-- `f32` depends only on the number, not on the fraction that stands for it. -/
theorem f32_congr {q r : Frac} (hq : 0 < q.den) (hr : 0 < r.den) (h : fracVal q = fracVal r) : f32 q = f32 r := by
  have hqq : (0 : ℚ) < q.den := by exact_mod_cast hq
  have hrq : (0 : ℚ) < r.den := by exact_mod_cast hr
  have cross : q.num * r.den = r.num * q.den := by
    have := (div_eq_div_iff hqq.ne' hrq.ne').mp h
    exact_mod_cast this
  have hz : q.num = 0 ↔ r.num = 0 := by
    constructor <;> intro hh <;> rw [hh] at cross <;> simp at cross <;> omega
  by_cases h0 : q.num = 0
  · simp [f32, h0, hz.mp h0]
  have h0' : r.num ≠ 0 := fun hh => h0 (hz.mpr hh)
  have hneg : q.num < 0 ↔ r.num < 0 := by
    have e1 : fracVal q < 0 ↔ q.num < 0 := by
      rw [fracVal, div_lt_iff₀ hqq, zero_mul]; exact_mod_cast Iff.rfl
    have e2 : fracVal r < 0 ↔ r.num < 0 := by
      rw [fracVal, div_lt_iff₀ hrq, zero_mul]; exact_mod_cast Iff.rfl
    rw [← e1, ← e2, h]
  have ha := Int.natAbs_pos.mpr h0
  have ha' := Int.natAbs_pos.mpr h0'
  have habs : (q.num.natAbs : ℚ) / q.den = (r.num.natAbs : ℚ) / r.den := by
    rw [← abs_fracVal, ← abs_fracVal, h]
  have he : floorLog2 q.num.natAbs q.den = floorLog2 r.num.natAbs r.den := by
    obtain ⟨lo, up⟩ := floorLog2_spec ha hq
    rw [← le_div_iff₀ hqq, habs] at lo
    rw [← div_lt_iff₀ hqq, habs] at up
    obtain ⟨x, y⟩ := floorLog2_range ha' hr lo up
    omega
  have hs : ∀ e, significand q.num.natAbs q.den e = significand r.num.natAbs r.den e := by
    intro e
    obtain ⟨a1, d1, hd1, s1, v1⟩ := significand_eq (a := q.num.natAbs) hq e
    obtain ⟨a2, d2, hd2, s2, v2⟩ := significand_eq (a := r.num.natAbs) hr e
    rw [s1, s2]
    refine roundHalfEven_congr hd1 hd2 ?_
    have : (a1 : ℚ) * d2 = a2 * d1 := by rw [v1, v2, habs]; ring
    exact_mod_cast this
  simp only [f32, h0, h0', if_false, he, hs, hneg]

end Sys2Proof.Laws
end

