-- ==== Sys2Proof/Laws/Decode.lean ====
section
/-! SUPPORT. The opcode map: no word matches two rows, so the row that matches a word is the one the decoder finds. -/

namespace Sys2Proof

/-- No two rows overlap: in a bit that both fix they differ. -/
theorem opcodeMap_disjoint :
    opcodeMap.Pairwise (fun r r' => r.mask &&& r'.mask &&& (r.pattern ^^^ r'.pattern) ≠ 0#32) := by
  decide

theorem masked_eq_of_selects {r r' : OpcodeRow} {w : Word} (h : rowSelects r w = true)
    (h' : rowSelects r' w = true) : r.mask &&& r'.mask &&& (r.pattern ^^^ r'.pattern) = 0#32 := by
  simp only [rowSelects, beq_iff_eq] at h h'
  rw [← h, ← h']
  apply BitVec.eq_of_getLsbD_eq
  intro i _
  simp only [BitVec.getLsbD_and, BitVec.getLsbD_xor]
  cases r.mask.getLsbD i <;> cases r'.mask.getLsbD i <;> cases w.getLsbD i <;> simp

theorem find_eq_of_pairwise {rows : List OpcodeRow} {r : OpcodeRow} {w : Word}
    (hp : rows.Pairwise (fun r r' => r.mask &&& r'.mask &&& (r.pattern ^^^ r'.pattern) ≠ 0#32))
    (hr : r ∈ rows) (h : rowSelects r w = true) : rows.find? (fun r => rowSelects r w) = some r := by
  induction rows with
  | nil => cases hr
  | cons r₀ rows ih =>
    obtain ⟨h0, hp'⟩ := List.pairwise_cons.mp hp
    rcases List.mem_cons.mp hr with rfl | hr
    · simp [h]
    · have hn : rowSelects r₀ w = false := by
        by_contra hc
        exact h0 r hr (masked_eq_of_selects (by simpa using hc) h)
      simp [hn, ih hp' hr]

/-- The row that matches a word is the one the decoder finds. -/
theorem find_row {r : OpcodeRow} {w : Word} (hr : r ∈ opcodeMap) (h : rowSelects r w = true) :
    opcodeMap.find? (fun r => rowSelects r w) = some r :=
  find_eq_of_pairwise opcodeMap_disjoint hr h

/-- Decoding a word that a row matches: the operands of that row, if they are in range. -/
theorem decode_of_row {r : OpcodeRow} {w : Word} (hr : r ∈ opcodeMap) (h : rowSelects r w = true) :
    decode w =
      if (buildInstr r.code w).wellFormed then .ok (buildInstr r.code w) else .error .operandRange := by
  simp only [decode, find_row hr h]

/-- A word that decodes is matched by a row and decodes to that row's operands, which are in range. -/
theorem row_of_decode {w : Word} {i : Instr} (h : decode w = .ok i) :
    ∃ r ∈ opcodeMap, rowSelects r w = true ∧ buildInstr r.code w = i ∧ i.wellFormed = true := by
  simp only [decode] at h
  split at h
  · rename_i r hf
    split at h
    · cases h
      exact ⟨r, List.mem_of_find?_eq_some hf, by simpa using List.find?_some hf, rfl, ‹_›⟩
    · cases h
  · split at h <;> cases h

end Sys2Proof
end

