-- ==== Sys2Proof/Laws/Memory.lean ====
section
/-! SUPPORT. The receive buffer: every operation keeps the canonical form, a read after a write gives the value written,
a write leaves every other address alone, and equal contents are equal data. -/

namespace Sys2Proof.Machine

@[simp] theorem Memory.read_nil (a : Nat) : Memory.read [] a = 0x00#8 := rfl

theorem Memory.wf_nil : Memory.wf [] := by simp [Memory.wf]

/-- Cells of a write: the old cells at other addresses and, unless it is the unlisted value, the new one. -/
theorem Memory.mem_write {m : Memory} {a : Nat} {v : Byte} {c : Host.Cell} (h : c ∈ Memory.write m a v) :
    c ∈ m ∨ (c = (a, v) ∧ v ≠ Memory.unlisted) := by
  induction m with
  | nil =>
    simp only [Memory.write] at h
    split at h <;> simp_all
  | cons c' m ih =>
    obtain ⟨k, b⟩ := c'
    simp only [Memory.write] at h
    split_ifs at h <;> simp only [List.mem_cons] at h ⊢ <;> tauto

/-- A write keeps the canonical form. -/
theorem Memory.wf_write {m : Memory} {a : Nat} {v : Byte} (hm : Memory.wf m) (ha : a < 8) :
    Memory.wf (Memory.write m a v) := by
  refine ⟨?_, fun c hc => ?_⟩
  · induction m with
    | nil => simp only [Memory.write]; split <;> simp
    | cons c' m ih =>
      obtain ⟨k, b⟩ := c'
      obtain ⟨hp, hb⟩ := hm
      obtain ⟨hk, hp'⟩ := List.pairwise_cons.mp hp
      have hw : Memory.wf m := ⟨hp', fun c hc => hb c (List.mem_cons_of_mem _ hc)⟩
      simp only [Memory.write]
      split_ifs with h1 h2 h3 h4
      · exact hp
      · refine List.pairwise_cons.mpr ⟨fun c hc => ?_, hp⟩
        rcases List.mem_cons.mp hc with rfl | hc
        · exact h1
        · exact lt_trans h1 (hk c hc)
      · exact hp'
      · subst h3; exact List.pairwise_cons.mpr ⟨hk, hp'⟩
      · refine List.pairwise_cons.mpr ⟨fun c hc => ?_, ih hw⟩
        rcases Memory.mem_write hc with hc | ⟨rfl, -⟩
        · exact hk c hc
        · show k < a
          omega
  · rcases Memory.mem_write hc with hc | ⟨rfl, hv⟩
    · exact hm.2 c hc
    · exact ⟨ha, hv⟩

/-- A write leaves every other address alone. -/
theorem Memory.read_write_other {m : Memory} {a a' : Nat} {v : Byte} (h : a' ≠ a) :
    Memory.read (Memory.write m a v) a' = Memory.read m a' := by
  induction m with
  | nil =>
    simp only [Memory.write]
    split
    · rfl
    · simp [Memory.read, Ne.symm h]
  | cons c m ih =>
    obtain ⟨k, b⟩ := c
    simp only [Memory.write]
    split_ifs with h1 h2 h3 h4
    · rfl
    · simp [Memory.read, Ne.symm h]
    · subst h3; simp [Memory.read, Ne.symm h]
    · subst h3; simp [Memory.read, Ne.symm h]
    · simp only [Memory.read, ih]

/-- An address below every listed one reads as unlisted. -/
theorem Memory.read_of_lt {m : Memory} {a : Nat} (h : ∀ c ∈ m, a < c.1) : Memory.read m a = Memory.unlisted := by
  induction m with
  | nil => rfl
  | cons c m ih =>
    obtain ⟨k, b⟩ := c
    have hk : a < k := h (k, b) (by simp)
    simp [Memory.read, Nat.ne_of_gt hk, ih (fun c hc => h c (List.mem_cons_of_mem _ hc))]

/-- A read after a write to the same address gives the value written. -/
theorem Memory.read_write_self {m : Memory} {a : Nat} {v : Byte} (hm : m.Pairwise (fun c c' => c.1 < c'.1)) :
    Memory.read (Memory.write m a v) a = v := by
  induction m with
  | nil =>
    simp only [Memory.write]
    split
    · simp_all [Memory.read]
    · simp [Memory.read]
  | cons c m ih =>
    obtain ⟨k, b⟩ := c
    obtain ⟨hk, hp⟩ := List.pairwise_cons.mp hm
    simp only [Memory.write]
    split_ifs with h1 h2 h3 h4
    · subst h2
      refine Memory.read_of_lt (fun c hc => ?_)
      rcases List.mem_cons.mp hc with rfl | hc
      · exact h1
      · exact lt_trans h1 (hk c hc)
    · simp [Memory.read]
    · subst h3 h4; exact Memory.read_of_lt hk
    · simp [Memory.read]
    · simp [Memory.read, Ne.symm h3, ih hp]

/-- A run of writes keeps the canonical form. -/
theorem writeBytes_wf {vs : List Byte} {m : Memory} {a : Nat} (hm : Memory.wf m) (h : a + vs.length ≤ 8) :
    Memory.wf (writeBytes m a vs) := by
  induction vs generalizing m a with
  | nil => exact hm
  | cons v vs ih =>
    simp only [List.length_cons] at h
    exact ih (Memory.wf_write hm (by omega)) (by omega)

/-- A run of writes leaves every address outside it alone. -/
theorem read_writeBytes_outside {vs : List Byte} {m : Memory} {a i : Nat} (h : i < a ∨ a + vs.length ≤ i) :
    Memory.read (writeBytes m a vs) i = Memory.read m i := by
  induction vs generalizing m a with
  | nil => rfl
  | cons v vs ih =>
    simp only [List.length_cons] at h
    rw [writeBytes, ih (by omega), Memory.read_write_other (by omega)]

/-- A run of writes, read inside it. -/
theorem read_writeBytes_inside {vs : List Byte} {m : Memory} {a i : Nat} (hm : Memory.wf m)
    (h8 : a + vs.length ≤ 8) (hi : i < vs.length) :
    Memory.read (writeBytes m a vs) (a + i) = vs[i] := by
  induction vs generalizing m a i with
  | nil => simp at hi
  | cons v vs ih =>
    simp only [List.length_cons] at h8 hi
    cases i with
    | zero =>
      rw [writeBytes, read_writeBytes_outside (by omega)]
      simpa using Memory.read_write_self hm.1
    | succ i =>
      have := ih (m := Memory.write m a v) (a := a + 1) (i := i) (Memory.wf_write hm (by omega)) (by omega) (by omega)
      rw [writeBytes, show a + (i + 1) = a + 1 + i by omega, this]
      rfl

/-- Equal contents are equal data: two canonical memories that read alike are the same list. -/
theorem Memory.eq_of_read {m m' : Memory} (hm : Memory.wf m) (hm' : Memory.wf m')
    (h : ∀ a, Memory.read m a = Memory.read m' a) : m = m' := by
  induction m generalizing m' with
  | nil =>
    cases m' with
    | nil => rfl
    | cons c m' =>
      exact absurd (by simpa [Memory.read] using (h c.1).symm) (hm'.2 c (by simp)).2
  | cons c m ih =>
    obtain ⟨k, b⟩ := c
    obtain ⟨hk, hp⟩ := List.pairwise_cons.mp hm.1
    have hw : Memory.wf m := ⟨hp, fun c hc => hm.2 c (List.mem_cons_of_mem _ hc)⟩
    have hb : b ≠ Memory.unlisted := (hm.2 (k, b) (by simp)).2
    cases m' with
    | nil => exact absurd (by simpa [Memory.read] using h k) hb
    | cons c' m' =>
      obtain ⟨k', b'⟩ := c'
      obtain ⟨hk', hp'⟩ := List.pairwise_cons.mp hm'.1
      have hw' : Memory.wf m' := ⟨hp', fun c hc => hm'.2 c (List.mem_cons_of_mem _ hc)⟩
      have hb' : b' ≠ Memory.unlisted := (hm'.2 (k', b') (by simp)).2
      have below : ∀ {x y : Nat} {l : Memory}, x < y → (∀ c ∈ l, y < c.1) → Memory.read l x = Memory.unlisted :=
        fun hxy hl => Memory.read_of_lt (fun c hc => lt_trans hxy (hl c hc))
      have hkk : k = k' := by
        rcases lt_trichotomy k k' with hlt | heq | hgt
        · have := h k
          simp only [Memory.read, if_true, Nat.ne_of_gt hlt, if_false, below hlt hk'] at this
          exact absurd this hb
        · exact heq
        · have := h k'
          simp only [Memory.read, if_true, Nat.ne_of_gt hgt, if_false, below hgt hk] at this
          exact absurd this.symm hb'
      subst hkk
      have hbb : b = b' := by simpa [Memory.read] using h k
      subst hbb
      refine congrArg _ (ih hw hw' (fun a => ?_))
      by_cases ha : k = a
      · subst ha; rw [Memory.read_of_lt hk, Memory.read_of_lt hk']
      · simpa [Memory.read, ha] using h a

@[simp] theorem responseBytes_length (d : BitVec 64) (n : Nat) : (responseBytes d n).length = n := by
  simp [responseBytes]

@[simp] theorem readBytes_length (m : Memory) (a n : Nat) : (readBytes m a n).length = n := by
  simp [readBytes]

end Sys2Proof.Machine
end

