-- ==== Sys2Proof/Laws/State.lean ====
section
/-! SUPPORT. One lemma per field of `State` per update of it, true by rfl, so that no proof unfolds a record update. -/

namespace Sys2Proof.Machine

@[simp] theorem onBlock_block (f : Block → Block) (s : State) : (onBlock f s).block = f s.block := rfl
@[simp] theorem onBlock_now (f : Block → Block) (s : State) : (onBlock f s).now = s.now := rfl
@[simp] theorem onBlock_rst (f : Block → Block) (s : State) : (onBlock f s).rst = s.rst := rfl
@[simp] theorem onBlock_inputs (f : Block → Block) (s : State) : (onBlock f s).inputs = s.inputs := rfl
@[simp] theorem onBlock_history (f : Block → Block) (s : State) : (onBlock f s).history = s.history := rfl
@[simp] theorem onBlock_host (f : Block → Block) (s : State) : (onBlock f s).host = s.host := rfl

@[simp] theorem record_block (e : TransportEvent) (s : State) : (record e s).block = s.block := rfl
@[simp] theorem record_now (e : TransportEvent) (s : State) : (record e s).now = s.now := rfl
@[simp] theorem record_rst (e : TransportEvent) (s : State) : (record e s).rst = s.rst := rfl
@[simp] theorem record_inputs (e : TransportEvent) (s : State) : (record e s).inputs = s.inputs := rfl
@[simp] theorem record_history (e : TransportEvent) (s : State) : (record e s).history = s.history ++ [e] := rfl
@[simp] theorem record_host (e : TransportEvent) (s : State) : (record e s).host = s.host := rfl

@[simp] theorem emitRequest_block (n : BitVec 4) (s : State) : (emitRequest n s).block = s.block := rfl
@[simp] theorem emitRequest_now (n : BitVec 4) (s : State) : (emitRequest n s).now = s.now := rfl
@[simp] theorem emitRequest_rst (n : BitVec 4) (s : State) : (emitRequest n s).rst = s.rst := rfl
@[simp] theorem emitRequest_inputs (n : BitVec 4) (s : State) : (emitRequest n s).inputs = s.inputs := rfl
@[simp] theorem emitRequest_history (n : BitVec 4) (s : State) : (emitRequest n s).history = s.history ++ [.request s.block.addr n] := rfl
@[simp] theorem emitRequest_host (n : BitVec 4) (s : State) : (emitRequest n s).host = s.host := rfl

@[simp] theorem resetBlock_block (s : State) : (resetBlock s).block = Block.reset := rfl
@[simp] theorem resetBlock_now (s : State) : (resetBlock s).now = s.now := rfl
@[simp] theorem resetBlock_rst (s : State) : (resetBlock s).rst = s.rst := rfl
@[simp] theorem resetBlock_inputs (s : State) : (resetBlock s).inputs = s.inputs := rfl
@[simp] theorem resetBlock_history (s : State) : (resetBlock s).history = s.history := rfl
@[simp] theorem resetBlock_host (s : State) : (resetBlock s).host = s.host := rfl

@[simp] theorem tickClock_block (s : State) : (tickClock s).block = s.block := rfl
@[simp] theorem tickClock_now (s : State) : (tickClock s).now = s.now + 1#32 := rfl
@[simp] theorem tickClock_rst (s : State) : (tickClock s).rst = s.rst := rfl
@[simp] theorem tickClock_inputs (s : State) : (tickClock s).inputs = s.inputs := rfl
@[simp] theorem tickClock_history (s : State) : (tickClock s).history = s.history := rfl
@[simp] theorem tickClock_host (s : State) : (tickClock s).host = s.host := rfl

@[simp] theorem illegalCommand_block (s : State) : (illegalCommand s).block = { s.block with cmderr := true } := rfl
@[simp] theorem illegalCommand_now (s : State) : (illegalCommand s).now = s.now := rfl
@[simp] theorem illegalCommand_rst (s : State) : (illegalCommand s).rst = s.rst := rfl
@[simp] theorem illegalCommand_inputs (s : State) : (illegalCommand s).inputs = s.inputs := rfl
@[simp] theorem illegalCommand_history (s : State) : (illegalCommand s).history = s.history := rfl
@[simp] theorem illegalCommand_host (s : State) : (illegalCommand s).host = s.host := rfl

@[simp] theorem onHost_block (f : HostAgent → HostAgent) (s : State) : (onHost f s).block = s.block := rfl
@[simp] theorem onHost_now (f : HostAgent → HostAgent) (s : State) : (onHost f s).now = s.now := rfl
@[simp] theorem onHost_rst (f : HostAgent → HostAgent) (s : State) : (onHost f s).rst = s.rst := rfl
@[simp] theorem onHost_inputs (f : HostAgent → HostAgent) (s : State) : (onHost f s).inputs = s.inputs := rfl
@[simp] theorem onHost_history (f : HostAgent → HostAgent) (s : State) : (onHost f s).history = s.history := rfl
@[simp] theorem onHost_host (f : HostAgent → HostAgent) (s : State) : (onHost f s).host = f s.host := rfl

@[simp] theorem continueWith_block (code : List HostAction) (s : State) : (continueWith code s).block = s.block := rfl
@[simp] theorem continueWith_now (code : List HostAction) (s : State) : (continueWith code s).now = s.now := rfl
@[simp] theorem continueWith_rst (code : List HostAction) (s : State) : (continueWith code s).rst = s.rst := rfl
@[simp] theorem continueWith_inputs (code : List HostAction) (s : State) : (continueWith code s).inputs = s.inputs := rfl
@[simp] theorem continueWith_history (code : List HostAction) (s : State) : (continueWith code s).history = s.history := rfl
@[simp] theorem continueWith_host (code : List HostAction) (s : State) : (continueWith code s).host = { s.host with code := code } := rfl

@[simp] theorem onSession_block (f : Session → Session) (s : State) : (onSession f s).block = s.block := rfl
@[simp] theorem onSession_now (f : Session → Session) (s : State) : (onSession f s).now = s.now := rfl
@[simp] theorem onSession_rst (f : Session → Session) (s : State) : (onSession f s).rst = s.rst := rfl
@[simp] theorem onSession_inputs (f : Session → Session) (s : State) : (onSession f s).inputs = s.inputs := rfl
@[simp] theorem onSession_history (f : Session → Session) (s : State) : (onSession f s).history = s.history := rfl
@[simp] theorem onSession_host (f : Session → Session) (s : State) : (onSession f s).host = { s.host with session := f s.host.session } := rfl

@[simp] theorem unlessReset_of_asserted {s : State} (f : State → Outcome) (h : s.rst = true) :
    unlessReset f s = .next s := by simp [unlessReset, h]
@[simp] theorem unlessReset_of_released {s : State} (f : State → Outcome) (h : s.rst = false) :
    unlessReset f s = f s := by simp [unlessReset, h]

@[simp] theorem cmdReady_iff (b : Block) : cmdReady b = true ↔ b.ps = .idle := by simp [cmdReady]

@[simp] theorem Block.reset_ps : Block.reset.ps = .idle := rfl

end Sys2Proof.Machine
end

