-- ==== Sys2Proof/Laws/WellFormed.lean ====
section
/-! SUPPORT. The operand constraints of 30_encoding.md R98 as propositions. -/

namespace Sys2Proof

@[simp] theorem wellFormed_crcBuf (off len : BitVec 4) :
    (Instr.crcBuf off len).wellFormed = true ↔ off.toNat + len.toNat ≤ 8 := by
  simp only [Instr.wellFormed, decide_eq_true_eq]

@[simp] theorem wellFormed_crcVfy (off len : BitVec 4) :
    (Instr.crcVfy off len).wellFormed = true ↔ 1 ≤ len.toNat ∧ off.toNat + len.toNat ≤ 7 := by
  simp only [Instr.wellFormed, Bool.and_eq_true, decide_eq_true_eq]

@[simp] theorem wellFormed_smpLd (off : BitVec 4) : (Instr.smpLd off).wellFormed = true ↔ off.toNat ≤ 6 := by
  simp only [Instr.wellFormed, decide_eq_true_eq]

@[simp] theorem wellFormed_poll (n : BitVec 4) (b : BitVec 3) (t : BitVec 16) :
    (Instr.poll n b t).wellFormed = true ↔
      (1 ≤ n.toNat ∧ n.toNat ≤ 8) ∧ 2 ≤ b.toNat ∧ b.toNat ≤ 6 := by
  simp only [Instr.wellFormed, Bool.and_eq_true, decide_eq_true_eq]
  rfl

end Sys2Proof
end

