-- ==== Sys2Proof/Laws/Ops.lean ====
section
/-! SUPPORT. What each shared operation, each meaning and each event does, said once: as an equation where it is one, and
as the frame that every meaning keeps. -/

namespace Sys2Proof.Machine

/-- The condition `ok` of `CRC.VFY` as a proposition (41_crc.md R126). -/
theorem groupVerifies_iff (b : Block) (off len : BitVec 4) :
    groupVerifies b off len = true ↔
      off.toNat + len.toNat + 1 ≤ b.bufcnt.toNat ∧
        crc8Compute (readBytes b.buf off.toNat len.toNat) = Memory.read b.buf (off.toNat + len.toNat) := by
  unfold groupVerifies groupReceived
  rw [Bool.and_eq_true, decide_eq_true_eq, decide_eq_true_eq]
  rfl

/-- What `SMP.LD` writes into `RAWV`, as a proposition (42_decode.md R147). -/
theorem loadedValid_iff (b : Block) (off : BitVec 4) :
    loadedValid b off = true ↔ off.toNat + 2 ≤ b.bufcnt.toNat ∧ b.crcerr = false := by
  simp [loadedValid, sampleReceived]

/-- The guard of `wake` as a proposition (43_poll.md R165). -/
theorem wakeEnabled_iff (now : Word) (b : Block) :
    wakeEnabled now b = true ↔ b.ps = .sleep ∧ b.pb.toNat ≤ (now - b.ts).toNat := by
  unfold wakeEnabled elapsed
  rw [Bool.and_eq_true, decide_eq_true_eq, decide_eq_true_eq]

/-- The deadline test as a proposition (43_poll.md R167). -/
theorem deadlinePassed_iff (now : Word) (b : Block) :
    deadlinePassed now b = true ↔ b.pt.toNat < (now - b.t0).toNat := by
  unfold deadlinePassed elapsed
  rw [decide_eq_true_eq]

theorem flagVerification_of_ok (b : Block) : flagVerification true b = b := rfl

theorem flagVerification_of_bad (b : Block) :
    flagVerification false b = { b with crcerr := true, rawv := false } := rfl

theorem whenLegal_of_wellFormed {i : Instr} (f : State → State) (s : State) (h : i.wellFormed = true) :
    whenLegal i f s = .next (f s) := by
  simp [whenLegal, h]

theorem whenLegal_of_illFormed {i : Instr} (f : State → State) (s : State) (h : i.wellFormed = false) :
    whenLegal i f s = .next (illegalCommand s) := by
  simp [whenLegal, h]

/-- What a well-formed command does to the block, the time `now` given. -/
def commandEffect (i : Instr) (now : Word) (b : Block) : Block :=
  match i with
  | .nop => b
  | .clrf => clearFlags b
  | .cfgAddr imm7 => { b with addr := imm7 }
  | .crcClr => { b with crc := 0x00#8 }
  | .crcByte imm8 => { b with crc := crc8Step b.crc imm8 }
  | .crcBuf off len => { b with crc := crc8Compute (dataBytes b off len) }
  | .crcVfy off len =>
    flagVerification (groupVerifies b off len) { b with crc := crc8Compute (dataBytes b off len) }
  | .smpSet imm16 => { b with raw := imm16, rawv := true }
  | .smpLd off => { b with raw := sampleAt b off, rawv := loadedValid b off }
  | .smpInv => { b with rawv := false }
  | .decRh => { b with result := decodedOr decodeHumidity b }
  | .decT => { b with result := decodedOr decodeTemperature b }
  | .poll n c t => startPoll n c t now b

/-- What a well-formed command puts on the transport port. -/
def commandEmits (i : Instr) (b : Block) : List TransportEvent :=
  match i with
  | .poll n _ _ => [.request b.addr n]
  | _ => []

/-- Every meaning at once: a well-formed command changes the block and the history and nothing else. -/
theorem exec_of_wellFormed {i : Instr} (s : State) (h : i.wellFormed = true) :
    exec i s = .next { s with
      block := commandEffect i s.now s.block, history := s.history ++ commandEmits i s.block } := by
  cases i <;>
    simp [exec, execNop, execClrf, execCfgAddr, execCrcClr, execCrcByte, execCrcBuf, execCrcVfy, execSmpSet,
      execSmpLd, execSmpInv, execDecRh, execDecT, execPoll, whenLegal, h, commandEffect, commandEmits, onBlock,
      emitRequest, record]

/-- Operands out of range: `CMDERR` and nothing else. -/
theorem exec_of_illFormed {i : Instr} (s : State) (h : i.wellFormed = false) :
    exec i s = .next (illegalCommand s) := by
  cases i with
  | crcBuf off len => exact whenLegal_of_illFormed _ _ h
  | crcVfy off len => exact whenLegal_of_illFormed _ _ h
  | smpLd off => exact whenLegal_of_illFormed _ _ h
  | poll n b t => rw [exec, execPoll, whenLegal_of_illFormed _ _ h]
  | _ => exact absurd h (by simp [Instr.wellFormed])

/-- What the decoder lets through is well-formed. -/
theorem wellFormed_of_decode {w : Word} {i : Instr} (h : decode w = .ok i) : i.wellFormed = true := by
  simp only [decode] at h
  split at h
  · split at h
    · cases h; assumption
    · cases h
  · split at h <;> cases h

theorem acceptWord_of_decode {w : Word} {i : Instr} (s : State) (h : decode w = .ok i) :
    acceptWord w s = .next { s with
      block := commandEffect i s.now s.block, history := s.history ++ commandEmits i s.block } := by
  simp only [acceptWord, h]
  exact exec_of_wellFormed s (wellFormed_of_decode h)

theorem acceptWord_of_illegal {w : Word} {e : Illegal} (s : State) (h : decode w = .error e) :
    acceptWord w s = .next (illegalCommand s) := by
  simp [acceptWord, h]

/-- What accepting a word does to the block, its decoding given. -/
def acceptEffect (r : Except Illegal Instr) (now : Word) (b : Block) : Block :=
  match r with
  | .ok i => commandEffect i now b
  | .error _ => { b with cmderr := true }

/-- What accepting a word puts on the transport port, its decoding given. -/
def acceptEmits (r : Except Illegal Instr) (b : Block) : List TransportEvent :=
  match r with
  | .ok i => commandEmits i b
  | .error _ => []

/-- Accepting a word: the block and the history change and nothing else. -/
theorem acceptWord_eq (w : Word) (s : State) :
    acceptWord w s = .next { s with
      block := acceptEffect (decode w) s.now s.block, history := s.history ++ acceptEmits (decode w) s.block } := by
  generalize hr : decode w = r
  cases r with
  | ok i => exact acceptWord_of_decode s hr
  | error e => rw [acceptWord_of_illegal s hr]; simp [acceptEffect, acceptEmits, illegalCommand, onBlock]

/-- What an event does to the block. -/
def eventEffect (e : Event) (now : Word) (b : Block) : Block :=
  match e with
  | .accept w => acceptEffect (decode w) now b
  | .read _ => b
  | .wake =>
    if wakeEnabled now b then
      if deadlinePassed now b then { b with pto := true, ps := .idle } else { b with ps := .req }
    else b
  | .respond cnt d =>
    if b.ps = .req then (if cnt = b.pn then attemptSucceeds d b else attemptFails now b) else b
  | .tick => b
  | .reset => Block.reset

/-- What an event leaves on the transport port. -/
def eventEmits (e : Event) (now : Word) (b : Block) : List TransportEvent :=
  match e with
  | .accept w => acceptEmits (decode w) b
  | .wake => if wakeEnabled now b ∧ ¬deadlinePassed now b then [.request b.addr b.pn] else []
  | .respond cnt d => if b.ps = .req then [.response cnt d] else []
  | .read _ => []
  | .tick => []
  | .reset => []

/-- The time after an event. -/
def eventTime (e : Event) (now : Word) : Word :=
  match e with
  | .tick => now + 1#32
  | .accept _ => now
  | .read _ => now
  | .wake => now
  | .respond _ _ => now
  | .reset => now

/-- Every event at once: it changes the block, the time and the history and nothing else, and never stops. -/
theorem applyEvent_eq (e : Event) (s : State) :
    applyEvent e s = .next { s with
      block := eventEffect e s.now s.block, now := eventTime e s.now,
      history := s.history ++ eventEmits e s.now s.block } := by
  cases e with
  | accept w => simp only [applyEvent, acceptWord_eq, eventEffect, eventEmits, eventTime]
  | read k => simp [applyEvent, eventEffect, eventEmits, eventTime]
  | wake =>
    simp only [applyEvent, pollWake, eventEffect, eventEmits, eventTime]
    by_cases hw : wakeEnabled s.now s.block = true <;> by_cases hd : deadlinePassed s.now s.block = true <;>
      simp [hw, hd, onBlock, emitRequest, record]
  | respond cnt d =>
    simp only [applyEvent, pollRespond, eventEffect, eventEmits, eventTime]
    by_cases h : s.block.ps = .req <;> by_cases hc : cnt = s.block.pn <;> simp [h, hc, onBlock, record]
  | tick => simp [applyEvent, tickClock, eventEffect, eventEmits, eventTime]
  | reset => simp [applyEvent, resetBlock, eventEffect, eventEmits, eventTime]

end Sys2Proof.Machine
end

