-- ==== Sys2Proof/Laws/Step.lean ====
section
/-! SUPPORT. What a step can do, said once: at most one event of 00_scope.md R7 touches the block, the time and the
history, and an event happens only where its guard holds. -/

namespace Sys2Proof.Machine

/-- A command is accepted only while `PS == IDLE` (20_memory.md R61). -/
theorem idle_of_accept {s : State} {w : Word} (h : nextEvent s = some (.accept w)) : s.block.ps = .idle := by
  unfold nextEvent at h
  split at h
  · simp only [pinsEvent, Option.some.injEq] at h
    split_ifs at h with h1 h2 h3
    exact (cmdReady_iff _).mp h3.2
  · split_ifs at h; simp at h
  · split_ifs at h; simp at h
  · split at h
    · split_ifs at h with h1
      exact (cmdReady_iff _).mp h1.1
    · cases h
  · cases h

/-- A response is taken only while `PS == REQ` (20_memory.md R65). -/
theorem req_of_respond {s : State} {cnt : BitVec 4} {d : BitVec 64} (h : nextEvent s = some (.respond cnt d)) :
    s.block.ps = .req := by
  unfold nextEvent at h
  split at h
  · simp only [pinsEvent, Option.some.injEq] at h
    split_ifs at h with h1 h2 h3
    exact h2.2
  · split_ifs at h; simp at h
  · split_ifs at h; simp at h
  · split at h
    · split_ifs at h
      simp at h
    · cases h
  · cases h

/-- While `rst` is asserted no input but an instant of the pins performs an event (70_reset_and_hazards.md R260). -/
theorem no_event_of_asserted {s : State} (hr : s.rst = true) (hp : ∀ p rest, s.inputs ≠ .pins p :: rest) :
    nextEvent s = none := by
  unfold nextEvent
  split
  · exact absurd ‹_› (hp _ _)
  · simp [hr]
  · simp [hr]
  · split <;> simp [hr]
  · rfl

theorem idle_of_command {s : State} {i : Instr} (h : nextCommand s = some i) : s.block.ps = .idle := by
  unfold nextCommand at h
  split at h
  · exact idle_of_accept ‹_›
  · cases h

/-- A command accepted is the decoding of the word accepted, and well-formed. -/
theorem nextCommand_eq_some {s : State} {i : Instr} :
    nextCommand s = some i ↔ ∃ w, nextEvent s = some (.accept w) ∧ decode w = .ok i := by
  constructor
  · intro h
    unfold nextCommand at h
    split at h
    · rename_i w hw
      split at h
      · cases h; exact ⟨w, hw, ‹_›⟩
      · cases h
    · cases h
  · rintro ⟨w, hw, hd⟩
    simp [nextCommand, hw, hd]

/-- An event that is no acceptance accepts no command. -/
theorem no_command_of_event {s : State} {e : Event} (he : nextEvent s = some e) (h : ∀ w, e ≠ .accept w) :
    nextCommand s = none := by
  unfold nextCommand
  rw [he]
  cases e with
  | accept w => exact absurd rfl (h w)
  | _ => rfl

theorem no_command_of_illegal {s : State} {w : Word} {e : Illegal} (he : nextEvent s = some (.accept w))
    (h : decode w = .error e) : nextCommand s = none := by
  unfold nextCommand
  rw [he]
  simp [h]

theorem no_command_of_no_event {s : State} (he : nextEvent s = none) : nextCommand s = none := by
  unfold nextCommand
  rw [he]

/-- A host action other than presenting a command leaves the block, the time and the history alone. -/
theorem hostAction_frame {a : HostAction} {rest : List HostAction} {s t : State} (ha : ∀ i, a ≠ .blk i)
    (h : hostAction a rest s = .next t) :
    t.block = s.block ∧ t.now = s.now ∧ t.history = s.history ∧ t.inputs = s.inputs := by
  cases a with
  | blk i => exact absurd rfl (ha i)
  | sleepFrom since ms => simp only [hostAction, Host.Outcome.next.injEq] at h; subst h; split <;> simp
  | _ => simp only [hostAction, Host.Outcome.next.injEq] at h; subst h; simp

/-- A step by its event: with none, the block, the time and the history stay; with one, they are what the event makes of
them. -/
theorem step_effect {s t : State} (h : step s = .next t) :
    match nextEvent s with
    | none => t.block = s.block ∧ t.now = s.now ∧ t.history = s.history
    | some e => t.block = eventEffect e s.now s.block ∧ t.now = eventTime e s.now ∧
        t.history = s.history ++ eventEmits e s.now s.block := by
  unfold step at h
  cases hi : s.inputs with
  | nil => simp only [hi, Host.Outcome.next.injEq] at h; subst h; simp [nextEvent, hi]
  | cons i rest =>
    simp only [hi] at h
    cases i with
    | pins p =>
      simp only [applyInput, pinsInstant, applyEvent_eq, Host.Outcome.next.injEq] at h
      subst h; simp [nextEvent, hi]
    | wake =>
      simp only [applyInput, unlessReset, applyEvent_eq] at h
      split at h <;> cases h <;> simp_all [nextEvent]
    | tick =>
      simp only [applyInput, unlessReset, applyEvent_eq] at h
      split at h <;> cases h <;> simp_all [nextEvent]
    | call c =>
      simp only [applyInput, Host.Outcome.next.injEq] at h
      subst h; simp only [nextEvent, hi, hostCall]; split <;> simp
    | writeStatus n =>
      simp only [applyInput, Host.Outcome.next.injEq] at h
      subst h; simp only [nextEvent, hi, hostStatus]; split <;> simp
    | host =>
      simp only [applyInput, unlessReset] at h
      by_cases hx : s.rst = true
      · simp only [hx, if_true, Host.Outcome.next.injEq] at h
        subst h
        rw [no_event_of_asserted hx (by simp [hi])]
        simp
      rw [if_neg hx] at h
      simp only [hostStep] at h
      cases hc : s.host.code with
      | nil => simp only [hc, Host.Outcome.next.injEq] at h; subst h; simp [nextEvent, hi, hc]
      | cons a rest' =>
        simp only [hc] at h
        by_cases hr : cmdReady s.block = true
        · simp only [hr, if_true] at h
          by_cases ha : ∃ i, a = .blk i
          · obtain ⟨i, rfl⟩ := ha
            have := applyEvent_eq (.accept (encode i)) (continueWith rest' { s with inputs := rest })
            simp only [hostAction] at h
            simp only [applyEvent, h, Host.Outcome.next.injEq] at this
            subst this; simp [nextEvent, hi, hc, hr, hx]
          · have hf := hostAction_frame (fun i hi => ha ⟨i, hi⟩) h
            have hn : nextEvent s = none := by
              simp only [nextEvent, hi, hc]
              cases a <;> simp_all
            simp only [hn]
            exact ⟨hf.1, hf.2.1, hf.2.2.1⟩
        · simp only [hr, Bool.false_eq_true, if_false, Host.Outcome.next.injEq] at h
          subst h
          have hn : nextEvent s = none := by
            simp only [nextEvent, hi, hc]
            cases a <;> simp_all
          simp [hn]

/-- Without an event the block stays as it is. -/
theorem step_of_no_event {s t : State} (h : step s = .next t) (he : nextEvent s = none) :
    t.block = s.block ∧ t.now = s.now ∧ t.history = s.history := by
  simpa [he] using step_effect h

/-- With an event the block is what the event makes of it. -/
theorem step_of_event {s t : State} {e : Event} (h : step s = .next t) (he : nextEvent s = some e) :
    t.block = eventEffect e s.now s.block ∧ t.now = eventTime e s.now ∧
      t.history = s.history ++ eventEmits e s.now s.block := by
  simpa [he] using step_effect h

/-- Executing a command changes the block and the history and nothing else. -/
theorem acceptWord_frame {w : Word} {s t : State} (h : acceptWord w s = .next t) :
    t.host = s.host ∧ t.now = s.now ∧ t.rst = s.rst ∧ t.inputs = s.inputs := by
  rw [acceptWord_eq, Host.Outcome.next.injEq] at h
  subst h; exact ⟨rfl, rfl, rfl, rfl⟩

/-- The host software does not drive `rst`. -/
theorem hostAction_rst {a : HostAction} {rest : List HostAction} {s t : State}
    (h : hostAction a rest s = .next t) : t.rst = s.rst := by
  cases a with
  | blk i => exact (acceptWord_frame h).2.2.1
  | sleepFrom since ms =>
    simp only [hostAction, Host.Outcome.next.injEq] at h; subst h
    split <;> rfl
  | _ => simp only [hostAction, Host.Outcome.next.injEq] at h; subst h; rfl

/-- The level of `rst` after a step: an instant of the pins sets it, nothing else does. -/
theorem step_rst {s t : State} (h : step s = .next t) :
    t.rst = match s.inputs with
      | .pins p :: _ => p.rst
      | _ => s.rst := by
  unfold step at h
  cases hi : s.inputs with
  | nil => simp only [hi, Host.Outcome.next.injEq] at h; subst h; rfl
  | cons i rest =>
    simp only [hi] at h
    cases i with
    | pins p =>
      simp only [applyInput, pinsInstant, applyEvent_eq, Host.Outcome.next.injEq] at h; subst h; rfl
    | wake =>
      simp only [applyInput, unlessReset, applyEvent_eq] at h
      split at h <;> cases h <;> rfl
    | tick =>
      simp only [applyInput, unlessReset, applyEvent_eq] at h
      split at h <;> cases h <;> rfl
    | call c =>
      simp only [applyInput, Host.Outcome.next.injEq, hostCall] at h; subst h; split <;> rfl
    | writeStatus n =>
      simp only [applyInput, Host.Outcome.next.injEq, hostStatus] at h; subst h; split <;> rfl
    | host =>
      simp only [applyInput, unlessReset] at h
      split at h
      · cases h; rfl
      · simp only [hostStep] at h
        split at h
        · cases h; rfl
        · split at h
          · simpa using hostAction_rst h
          · cases h; rfl

/-- An instant of the pins with `rst` asserted performs the reset event. -/
theorem reset_of_pins {s : State} {p : Pins} {rest : List Input} (hi : s.inputs = .pins p :: rest)
    (hp : p.rst = true) : nextEvent s = some .reset := by
  simp [nextEvent, hi, pinsEvent, hp]

end Sys2Proof.Machine
end

