-- ==== Sys2Proof/Laws/Host.lean ====
section
/-! SUPPORT. What a step can do to the host software's data, said once (48_host_sequences.md R204). -/

namespace Sys2Proof.Machine

/-! ### A field that is populated once -/

@[simp] theorem populateSerialHigh_of_populated {x : Session} (v : Word) (h : x.serialHighPopulated = true) :
    populateSerialHigh v x = x := by simp [populateSerialHigh, h]
@[simp] theorem populateSerialHigh_of_fresh {x : Session} (v : Word) (h : x.serialHighPopulated = false) :
    populateSerialHigh v x = { x with serialHigh := v, serialHighPopulated := true } := by
  simp [populateSerialHigh, h]
@[simp] theorem populateSerialLow_of_populated {x : Session} (v : Word) (h : x.serialLowPopulated = true) :
    populateSerialLow v x = x := by simp [populateSerialLow, h]
@[simp] theorem populateSerialLow_of_fresh {x : Session} (v : Word) (h : x.serialLowPopulated = false) :
    populateSerialLow v x = { x with serialLow := v, serialLowPopulated := true } := by
  simp [populateSerialLow, h]
@[simp] theorem populateModel_of_populated {x : Session} (m : ModelClass) (h : x.modelPopulated = true) :
    populateModel m x = x := by simp [populateModel, h]
@[simp] theorem populateModel_of_fresh {x : Session} (m : ModelClass) (h : x.modelPopulated = false) :
    populateModel m x = { x with model := m, modelPopulated := true } := by simp [populateModel, h]

/-! ### A step -/

/-- An action of the host software does to the DeviceSession what `sessionEffect` says. -/
theorem hostAction_session {a : HostAction} {rest : List HostAction} {s t : State}
    (h : hostAction a rest s = .next t) : t.host.session = sessionEffect a s.block s.host.session := by
  cases a with
  | blk i => simp only [hostAction] at h; rw [(acceptWord_frame h).1]; rfl
  | sleepFrom since ms =>
    simp only [hostAction, Host.Outcome.next.injEq] at h; subst h
    split <;> rfl
  | _ => simp only [hostAction, Host.Outcome.next.injEq] at h; subst h; rfl

/-- A step leaves the DeviceSession as it is, or it is the host software's next action and does to the DeviceSession what
`sessionEffect` says. -/
theorem step_session {s t : State} (h : step s = .next t) :
    t.host.session = s.host.session ∨
    ∃ a rest, s.host.code = a :: rest ∧ s.block.ps = .idle ∧ s.rst = false ∧
      t.host.session = sessionEffect a s.block s.host.session := by
  unfold step at h
  cases hi : s.inputs with
  | nil => simp only [hi, Host.Outcome.next.injEq] at h; subst h; exact .inl rfl
  | cons i rest =>
    simp only [hi] at h
    cases i with
    | pins p =>
      simp only [applyInput, pinsInstant, applyEvent_eq, Host.Outcome.next.injEq] at h; subst h; exact .inl rfl
    | wake =>
      simp only [applyInput, unlessReset, applyEvent_eq] at h
      split at h <;> cases h <;> exact .inl rfl
    | tick =>
      simp only [applyInput, unlessReset, applyEvent_eq] at h
      split at h <;> cases h <;> exact .inl rfl
    | call c =>
      simp only [applyInput, Host.Outcome.next.injEq, hostCall] at h; subst h; split <;> exact .inl rfl
    | writeStatus n =>
      simp only [applyInput, Host.Outcome.next.injEq, hostStatus] at h; subst h; split <;> exact .inl rfl
    | host =>
      simp only [applyInput, unlessReset] at h
      split at h
      · cases h; exact .inl rfl
      · next hx =>
        simp only [hostStep] at h
        split at h
        · cases h; exact .inl rfl
        · next a rest' hc =>
          split at h
          · next hr =>
            exact .inr ⟨a, rest', hc, (cmdReady_iff _).mp hr, by simpa using hx, by simpa using hostAction_session h⟩
          · cases h; exact .inl rfl

end Sys2Proof.Machine
end

