-- ==== Sys2Proof/Laws/PerInstr.lean ====
section
/-! SUPPORT. Per instruction: its encoding stands in a row of the opcode map, every fixed bit of the row as the map has
it, and the row's operand fields of the encoding are the instruction's own operands. -/

namespace Sys2Proof.Laws.OperandFields

/-- The encoding of `i` matches a row, and that row's operand fields read from it are the operands of `i`. -/
def Statement (i : Instr) : Prop :=
  ∃ r ∈ opcodeMap, rowSelects r (encode i) = true ∧ buildInstr r.code (encode i) = i

/-- Bit by bit, over the 32 bits of a word or the bits of a field. -/
theorem of_row {i : Instr} (r : OpcodeRow) (hr : r ∈ opcodeMap) (hs : encode i &&& r.mask = r.pattern)
    (hb : buildInstr r.code (encode i) = i) : Statement i :=
  ⟨r, hr, by simpa [rowSelects] using hs, hb⟩

theorem nop : Statement .nop := by
  refine of_row ⟨.nop, 0xFFFFFFFF#32, 0x00000000#32⟩ (by decide) ?_ ?_
  · decide
  · rfl

theorem clrf : Statement .clrf := by
  refine of_row ⟨.clrf, 0xFFFFFFFF#32, 0x01000000#32⟩ (by decide) ?_ ?_
  · decide
  · rfl

theorem cfgAddr (imm7 : BitVec 7) : Statement (.cfgAddr imm7) := by
  refine of_row ⟨.cfgAddr, 0xFFFFFF80#32, 0x02000000#32⟩ (by decide) ?_ ?_
  · apply BitVec.eq_of_getLsbD_eq; intro i hi; interval_cases i <;> simp [encode]
  · simp only [buildInstr, Instr.cfgAddr.injEq]
    apply BitVec.eq_of_getLsbD_eq; intro i hi; interval_cases i <;> simp [encode]

theorem crcClr : Statement .crcClr := by
  refine of_row ⟨.crcClr, 0xFFFFFFFF#32, 0x10000000#32⟩ (by decide) ?_ ?_
  · decide
  · rfl

theorem crcByte (imm8 : BitVec 8) : Statement (.crcByte imm8) := by
  refine of_row ⟨.crcByte, 0xFFFFFF00#32, 0x11000000#32⟩ (by decide) ?_ ?_
  · apply BitVec.eq_of_getLsbD_eq; intro i hi; interval_cases i <;> simp [encode]
  · simp only [buildInstr, Instr.crcByte.injEq]
    apply BitVec.eq_of_getLsbD_eq; intro i hi; interval_cases i <;> simp [encode]

theorem crcBuf (off len : BitVec 4) : Statement (.crcBuf off len) := by
  refine of_row ⟨.crcBuf, 0xFFFFFF00#32, 0x12000000#32⟩ (by decide) ?_ ?_
  · apply BitVec.eq_of_getLsbD_eq; intro i hi; interval_cases i <;> simp [encode]
  · simp only [buildInstr, Instr.crcBuf.injEq]
    refine ⟨?_, ?_⟩ <;>
      (apply BitVec.eq_of_getLsbD_eq; intro i hi; interval_cases i <;> simp [encode])

theorem crcVfy (off len : BitVec 4) : Statement (.crcVfy off len) := by
  refine of_row ⟨.crcVfy, 0xFFFFFF00#32, 0x13000000#32⟩ (by decide) ?_ ?_
  · apply BitVec.eq_of_getLsbD_eq; intro i hi; interval_cases i <;> simp [encode]
  · simp only [buildInstr, Instr.crcVfy.injEq]
    refine ⟨?_, ?_⟩ <;>
      (apply BitVec.eq_of_getLsbD_eq; intro i hi; interval_cases i <;> simp [encode])

theorem smpSet (imm16 : BitVec 16) : Statement (.smpSet imm16) := by
  refine of_row ⟨.smpSet, 0xFFFF0000#32, 0x20000000#32⟩ (by decide) ?_ ?_
  · apply BitVec.eq_of_getLsbD_eq; intro i hi; interval_cases i <;> simp [encode]
  · simp only [buildInstr, Instr.smpSet.injEq]
    apply BitVec.eq_of_getLsbD_eq; intro i hi; interval_cases i <;> simp [encode]

theorem smpLd (off : BitVec 4) : Statement (.smpLd off) := by
  refine of_row ⟨.smpLd, 0xFFFFFF0F#32, 0x21000000#32⟩ (by decide) ?_ ?_
  · apply BitVec.eq_of_getLsbD_eq; intro i hi; interval_cases i <;> simp [encode]
  · simp only [buildInstr, Instr.smpLd.injEq]
    apply BitVec.eq_of_getLsbD_eq; intro i hi; interval_cases i <;> simp [encode]

theorem smpInv : Statement .smpInv := by
  refine of_row ⟨.smpInv, 0xFFFFFFFF#32, 0x22000000#32⟩ (by decide) ?_ ?_
  · decide
  · rfl

theorem decRh : Statement .decRh := by
  refine of_row ⟨.decRh, 0xFFFFFFFF#32, 0x23000000#32⟩ (by decide) ?_ ?_
  · decide
  · rfl

theorem decT : Statement .decT := by
  refine of_row ⟨.decT, 0xFFFFFFFF#32, 0x24000000#32⟩ (by decide) ?_ ?_
  · decide
  · rfl

theorem poll (n : BitVec 4) (b : BitVec 3) (t : BitVec 16) : Statement (.poll n b t) := by
  refine of_row ⟨.poll, 0xFF080000#32, 0x30000000#32⟩ (by decide) ?_ ?_
  · apply BitVec.eq_of_getLsbD_eq; intro i hi; interval_cases i <;> simp [encode]
  · simp only [buildInstr, Instr.poll.injEq]
    refine ⟨?_, ?_, ?_⟩ <;>
      (apply BitVec.eq_of_getLsbD_eq; intro i hi; interval_cases i <;> simp [encode])

end Sys2Proof.Laws.OperandFields
end

