-- ==== Sys2Proof/Laws/ReadPort.lean ====
section
/-! SUPPORT. The read port's words bit by bit and byte by byte, and what the host software sees through them. -/

namespace Sys2Proof.Machine

theorem getLsbD_append4 (a b c d : Byte) (i : Nat) :
    BitVec.getLsbD (w := 8 + 8 + 8 + 8) (a ++ b ++ c ++ d) i =
      if i < 8 then d.getLsbD i else if i < 16 then c.getLsbD (i - 8)
      else if i < 24 then b.getLsbD (i - 16) else a.getLsbD (i - 24) := by
  simp only [BitVec.getLsbD_append]
  split_ifs <;> first | rfl | omega

/-- A word read from the buffer, bit by bit. -/
theorem readWord_getLsbD (m : Memory) (a i : Nat) :
    (readWord m a).getLsbD i =
      if i < 8 then (Memory.read m (a + 3)).getLsbD i
      else if i < 16 then (Memory.read m (a + 2)).getLsbD (i - 8)
      else if i < 24 then (Memory.read m (a + 1)).getLsbD (i - 16) else (Memory.read m a).getLsbD (i - 24) :=
  getLsbD_append4 _ _ _ _ i

/-- Byte `j` of a word read from the buffer, the most significant first (20_memory.md R68). -/
theorem readWord_byte (m : Memory) (a : Nat) {j : Nat} (hj : j < 4) :
    (readWord m a).extractLsb' (24 - 8 * j) 8 = Memory.read m (a + j) := by
  apply BitVec.eq_of_getLsbD_eq
  intro i hi
  rw [BitVec.getLsbD_extractLsb', readWord_getLsbD]
  simp only [hi, decide_true, Bool.true_and]
  interval_cases j
  · rw [if_neg (by omega), if_neg (by omega), if_neg (by omega)]; congr 1; omega
  · rw [if_neg (by omega), if_neg (by omega), if_pos (by omega)]; congr 1; omega
  · rw [if_neg (by omega), if_pos (by omega)]; congr 1; omega
  · rw [if_pos (by omega)]; congr 1; omega

/-- `BUF[i]` as the host sees it is `BUF[i]`. -/
theorem hostBufByte_eq (b : Block) {i : Nat} (hi : i < 8) : hostBufByte b i = Memory.read b.buf i := by
  unfold hostBufByte
  split
  · rename_i h
    have := readWord_byte b.buf 0 h
    rwa [Nat.zero_add] at this
  · have := readWord_byte b.buf 4 (j := i - 4) (by omega)
    rwa [show 4 + (i - 4) = i by omega] at this

/-- `STATUS` with the width of its concatenation written out. -/
theorem statusWord_getLsbD (b : Block) (i : Nat) :
    (statusWord b).getLsbD i = BitVec.getLsbD (w := 18 + 2 + 4 + 2 + 1 + 1 + 1 + 1 + 1 + 1)
      (0#18 ++ pollStateBits b.ps ++ b.bufcnt ++ 0#2 ++ BitVec.ofBool b.cmderr ++ BitVec.ofBool b.crcerr ++
        BitVec.ofBool b.rawv ++ BitVec.ofBool b.pto ++ BitVec.ofBool b.pok ++ BitVec.ofBool (busy b)) i := rfl

/-- `POLLCFG` with the width of its concatenation written out. -/
theorem pollcfgWord_getLsbD (b : Block) (i : Nat) :
    (pollcfgWord b).getLsbD i =
      BitVec.getLsbD (w := 8 + 4 + 1 + 3 + 16) (0#8 ++ b.pn ++ 0#1 ++ b.pb ++ b.pt) i := rfl

/-- The host reads `POK`. -/
theorem hostPok_eq (b : Block) : hostPok b = b.pok := by
  show (statusWord b).getLsbD 1 = b.pok
  rw [statusWord_getLsbD]
  simp only [BitVec.getLsbD_append]
  simp

/-- The host reads `CRCERR`. -/
theorem hostCrcerr_eq (b : Block) : hostCrcerr b = b.crcerr := by
  show (statusWord b).getLsbD 4 = b.crcerr
  rw [statusWord_getLsbD]
  simp only [BitVec.getLsbD_append]
  simp

end Sys2Proof.Machine
end

