-- ==== Sys2Proof/Tests/Slice0.lean ====
section
/-! SUPPORT. Tests on words, vectors and programs of spec/95_test_vectors.md and the worked examples of the rules, each on
one step of a small state; and, for the statements with hypotheses, witnesses that meet them. -/

open Sys2Proof Sys2Proof.Machine Sys2Proof.Spec

namespace Sys2Proof.Tests

/-! ### Small states -/

/-- The reset state with another block. -/
def withBlock (b : Block) : State := { State.reset with block := b }

/-- The block a step leaves. -/
def blockAfter : Outcome → Option Block
  | .next t => some t.block
  | .fault _ => none
  | .refused _ => none

/-- The read-port register `k` after a step. -/
def portAfter (k : BitVec 4) (o : Outcome) : Option Word := (blockAfter o).map (fun b => readPort b k)

/-- The block after a 3-byte poll that brought 63 72 and `c` (95_test_vectors.md section 2.2). -/
def received (c : Byte) : Block :=
  { Block.reset with buf := [(0, 0x63#8), (1, 0x72#8), (2, c)], bufcnt := 3#4, pn := 3#4, pb := 6#3, pt := 100#16,
                     pok := true }

/-- A valid sample. -/
def sampled (raw : Half) : Block := { Block.reset with raw := raw, rawv := true }

/-- `POLL 3, 6, 100` started at time 1000, its request outstanding at time `now`. -/
def requesting (now : Word) : State :=
  { State.reset with
    block := { Block.reset with ps := .req, pn := 3#4, pb := 6#3, pt := 100#16, t0 := 1000#32 }
    now := now
    history := [.request 0x40#7 3#4] }

/-- The same poll asleep since a failed attempt at the time `ts`. -/
def sleeping (now ts : Word) : State :=
  { State.reset with
    block := { Block.reset with ps := .sleep, pn := 3#4, pb := 6#3, pt := 100#16, t0 := 1000#32, ts := ts }
    now := now
    history := [.request 0x40#7 3#4, .response 0#4 0#64] }

/-- The next input is an instant of the pins. -/
def pinned (p : Pins) (s : State) : State := { s with inputs := [.pins p] }

/-- The host is about to run `code`. -/
def hosting (code : List HostAction) (s : State) : State :=
  { s with host := { s.host with code := code }, inputs := [.host] }

/-! ### WellFormed: each check refuses an ill-formed command -/

theorem test_illFormed_crcBuf : (Instr.crcBuf 8#4 1#4).wellFormed = false := by decide
theorem test_wellFormed_crcBuf : (Instr.crcBuf 8#4 0#4).wellFormed = true := by decide
theorem test_illFormed_crcVfy_empty : (Instr.crcVfy 7#4 0#4).wellFormed = false := by decide
theorem test_illFormed_crcVfy_long : (Instr.crcVfy 6#4 2#4).wellFormed = false := by decide
theorem test_wellFormed_crcVfy : (Instr.crcVfy 6#4 1#4).wellFormed = true := by decide
theorem test_illFormed_smpLd : (Instr.smpLd 7#4).wellFormed = false := by decide
theorem test_illFormed_poll_n0 : (Instr.poll 0#4 2#3 100#16).wellFormed = false := by decide
theorem test_illFormed_poll_n9 : (Instr.poll 9#4 2#3 100#16).wellFormed = false := by decide
theorem test_illFormed_poll_b1 : (Instr.poll 3#4 1#3 100#16).wellFormed = false := by decide
theorem test_illFormed_poll_b7 : (Instr.poll 3#4 7#3 100#16).wellFormed = false := by decide
theorem test_wellFormed_poll : (Instr.poll 8#4 6#3 0xFFFF#16).wellFormed = true := by decide

/-! ### Decode: the words of 95_test_vectors.md section 2.1, one per command -/

theorem test_decode_nop : decode 0x00000000#32 = .ok .nop := by decide
theorem test_decode_clrf : decode 0x01000000#32 = .ok .clrf := by decide
theorem test_decode_cfgAddr : decode 0x0200007F#32 = .ok (.cfgAddr 0x7F#7) := by decide
theorem test_decode_crcClr : decode 0x10000000#32 = .ok .crcClr := by decide
theorem test_decode_crcByte : decode 0x110000A2#32 = .ok (.crcByte 0xA2#8) := by decide
theorem test_decode_crcBuf : decode 0x12000080#32 = .ok (.crcBuf 8#4 0#4) := by decide
theorem test_decode_crcVfy : decode 0x13000061#32 = .ok (.crcVfy 6#4 1#4) := by decide
theorem test_decode_smpSet : decode 0x20006372#32 = .ok (.smpSet 0x6372#16) := by decide
theorem test_decode_smpLd : decode 0x21000060#32 = .ok (.smpLd 6#4) := by decide
theorem test_decode_smpInv : decode 0x22000000#32 = .ok .smpInv := by decide
theorem test_decode_decRh : decode 0x23000000#32 = .ok .decRh := by decide
theorem test_decode_decT : decode 0x24000000#32 = .ok .decT := by decide
theorem test_decode_poll : decode 0x30360064#32 = .ok (.poll 3#4 6#3 100#16) := by decide
/-- `POLL 3, 6, 100` bit by bit from 30_encoding.md R96: opcode 0011_0000, n 0011, 0, b 110, t. -/
theorem test_decode_poll_bits :
    decode 0b00110000001101100000000001100100#32 = .ok (.poll 3#4 6#3 100#16) := by decide

/-! ### Illegal words, by name (R99 (a), (b), (c)) -/

theorem test_unassigned : [0x03000000#32, 0x0F000000#32, 0x14000000#32, 0x25000000#32, 0x31000000#32, 0x40000000#32,
    0xFF000000#32, 0xFFFFFFFF#32].map decode = List.replicate 8 (.error .unassignedOpcode) := by decide
theorem test_reserved : [0x00000001#32, 0x23000001#32, 0x10800000#32, 0x02000080#32, 0x11000100#32, 0x20010000#32,
    0x21000001#32, 0x303E0064#32].map decode = List.replicate 8 (.error .reservedBit) := by decide
theorem test_range : [0x12000081#32, 0x12000019#32, 0x13000000#32, 0x13000070#32, 0x13000062#32, 0x13000008#32,
    0x21000070#32].map decode = List.replicate 7 (.error .operandRange) := by decide
theorem test_range_poll : [0x30000064#32, 0x30960064#32, 0x30310064#32, 0x30300064#32, 0x30370064#32].map decode =
    List.replicate 5 (.error .operandRange) := by decide

/-! ### Encode and the table's numbering -/

theorem test_encode_poll : encode (.poll 8#4 6#3 0xFFFF#16) = 0x3086FFFF#32 := by decide
theorem test_encode_crcVfy : encode (.crcVfy 3#4 2#4) = 0x13000032#32 := by decide
theorem test_tableWord : decodeTableWord 32 0x21000030 = some (.smpLd 3#4) := by decide
theorem test_tableWord_illegal : decodeTableWord 32 0x21000070 = none := by decide

/-! ### System commands (95_test_vectors.md section 2.5) -/

theorem test_nop : exec .nop (requesting 5#32) = .next (requesting 5#32) := rfl
theorem test_clrf :
    portAfter 0#4 (exec .clrf (withBlock { received 0xE3#8 with crcerr := true })) = some 0x00000300#32 := by decide
theorem test_clrf_keeps :
    portAfter 0#4 (exec .clrf (withBlock { sampled 0#16 with cmderr := true })) = some 0x00000028#32 := by decide
theorem test_cfgAddr : portAfter 6#4 (exec (.cfgAddr 0x7F#7) State.reset) = some 0x7F#32 := by decide
theorem test_illegal_keeps_addr :
    portAfter 6#4 (acceptWord 0x02000080#32 State.reset) = some 0x40#32 := by decide
theorem test_illegal_flag : portAfter 0#4 (acceptWord 0x02000080#32 State.reset) = some 0x00000020#32 := by decide

/-! ### CRC (95_test_vectors.md section 2.2) -/

theorem test_compute_two : crc8Compute [0x63#8, 0x72#8] = 0xE2#8 := by decide +kernel
theorem test_compute_ascii :
    crc8Compute [0x31#8, 0x32#8, 0x33#8, 0x34#8, 0x35#8, 0x36#8, 0x37#8, 0x38#8, 0x39#8] = 0xA2#8 := by decide +kernel
theorem test_compute_order : crc8Compute [0x4E#8, 0x85#8] = 0x6B#8 := by decide +kernel
theorem test_crcClr :
    portAfter 1#4 (exec .crcClr (withBlock { Block.reset with crc := 0x55#8 })) = some 0x00#32 := by decide
theorem test_crcByte :
    portAfter 1#4 (exec (.crcByte 0x72#8) (withBlock { Block.reset with crc := 0xE8#8 })) = some 0xE2#32 := by decide
theorem test_crcBuf :
    portAfter 1#4 (exec (.crcBuf 1#4 1#4) (withBlock { received 0xE2#8 with crc := 0x99#8 })) =
      some 0x9A#32 := by decide
theorem test_crcBuf_empty :
    portAfter 1#4 (exec (.crcBuf 0#4 0#4) (withBlock { received 0xE2#8 with crc := 0x99#8 })) =
      some 0x00#32 := by decide
theorem test_crcVfy_good :
    portAfter 0#4 (exec (.crcVfy 0#4 2#4) (withBlock (received 0xE2#8))) = some 0x00000302#32 := by decide +kernel
/-- `compute([0x72, 0xE2]) == 0x41`; the checksum byte was not received. -/
theorem test_crcVfy_short :
    (blockAfter (exec (.crcVfy 1#4 2#4) (withBlock { received 0xE2#8 with rawv := true }))).map
      (fun b => (b.crc, b.crcerr, b.rawv)) = some (0x41#8, true, false) := by decide +kernel

/-! ### Samples and decoding (95_test_vectors.md section 2.3) -/

theorem test_smpSet :
    portAfter 2#4 (exec (.smpSet 0x6372#16) (withBlock { Block.reset with crcerr := true })) =
      some 0x6372#32 := by decide
theorem test_smpLd :
    (blockAfter (exec (.smpLd 1#4) (withBlock (received 0xE2#8)))).map (fun b => (b.raw, b.rawv)) =
      some (0x72E2#16, true) := by decide
theorem test_smpLd_past :
    (blockAfter (exec (.smpLd 2#4) (withBlock (received 0xE2#8)))).map (fun b => (b.raw, b.rawv)) =
      some (0xE200#16, false) := by decide
theorem test_smpInv :
    (blockAfter (exec .smpInv (withBlock (sampled 0x6372#16)))).map (fun b => (b.raw, b.rawv)) =
      some (0x6372#16, false) := by decide
theorem test_decRh : portAfter 3#4 (exec .decRh (withBlock (sampled 0x6372#16))) = some 0x422A3AA8#32 := by
  decide +kernel
theorem test_decRh_invalid : portAfter 3#4 (exec .decRh State.reset) = some 0x7FC00000#32 := by decide
theorem test_decT : portAfter 3#4 (exec .decT (withBlock (sampled 0x6372#16))) = some 0x41AB4774#32 := by
  decide +kernel
theorem test_humidity_ends :
    [decodeHumidity 0#16, decodeHumidity 3145#16, decodeHumidity 3146#16, decodeHumidity 55574#16,
      decodeHumidity 55575#16] =
    [0xC0C00000#32, 0xBAB60000#32, 0x3A080000#32, 0x42C7FF7C#32, 0x42C80000#32] := by decide +kernel
theorem test_temperature_ends :
    [decodeTemperature 0#16, decodeTemperature 17473#16, decodeTemperature 17474#16, decodeTemperature 65532#16,
      decodeTemperature 65535#16] =
    [0xC23B6666#32, 0xB8C00000#32, 0x3B29C000#32, 0x4300DBFA#32, 0x4300DE08#32] := by decide +kernel

/-! ### The poll state machine (95_test_vectors.md section 2.4) -/

/-- V14: what a start clears. -/
theorem test_poll_start :
    portAfter 0#4 (exec (.poll 3#4 6#3 100#16)
      (withBlock { received 0xE2#8 with rawv := true, crcerr := true })) = some 0x00002001#32 := by decide
theorem test_poll_config :
    portAfter 7#4 (exec (.poll 3#4 6#3 100#16) State.reset) = some 0x00360064#32 := by decide
/-- V1: the bytes 63 72 E2 stand in bits 63:40. -/
theorem test_answer :
    (blockAfter (step (pinned (responsePins 3#4 0x6372E20000000000#64) (requesting 1000#32)))).map
      (fun b => (readPort b 0#4, readPort b 4#4)) = some (0x00000302#32, 0x6372E200#32) := by decide
/-- V9: one byte too many. -/
theorem test_answer_long :
    (blockAfter (step (pinned (responsePins 4#4 0x6372E20000000000#64) (requesting 1001#32)))).map
      (fun b => (readPort b 0#4, readPort b 9#4, readPort b 4#4)) =
      some (0x00003001#32, 1001#32, 0#32) := by decide
/-- V11: a stray answer. -/
theorem test_answer_stray :
    portAfter 0#4 (step (pinned (responsePins 3#4 0x6372E20000000000#64) State.reset)) = some 0#32 := by decide
/-- V3: 5 ms of 6 have passed. -/
theorem test_wake_early :
    portAfter 0#4 (step { sleeping 1006#32 1001#32 with inputs := [.wake] }) = some 0x00003001#32 := by decide
/-- V6: at exactly 100 ms the block retries. -/
theorem test_wake_retry :
    portAfter 0#4 (step { sleeping 1100#32 1090#32 with inputs := [.wake] }) = some 0x00002001#32 := by decide
/-- V8: at 101 ms it times out. -/
theorem test_wake_timeout :
    portAfter 0#4 (step { sleeping 1101#32 1090#32 with inputs := [.wake] }) = some 0x00000004#32 := by decide
/-- V12: the time wrapped. -/
theorem test_wake_wrapped :
    portAfter 0#4 (step { sleeping 0x00000002#32 0xFFFFFFF8#32 with
      block := { (sleeping 0#32 0xFFFFFFF8#32).block with pb := 2#3, t0 := 0xFFFFFFF0#32 },
      inputs := [.wake] }) = some 0x00002001#32 := by decide
/-- V15: a word presented while the poll sleeps. -/
theorem test_busy :
    portAfter 0#4 (step (pinned (commandPins 0xFFFFFFFF#32) (sleeping 1006#32 1001#32))) =
      some 0x00003001#32 := by decide
/-- 60_exceptions.md R237: reset wins over a response. -/
theorem test_reset_wins :
    blockAfter (step (pinned { responsePins 3#4 0#64 with rst := true } (requesting 1000#32))) =
      some Block.reset := by decide
/-- 70_reset_and_hazards.md R260: `rst` stays asserted after its instant, and under it the host's `POLL` is not taken and
the clock does not tick. -/
theorem test_reset_holds :
    (match step (pinned resetPins (requesting 1000#32)) with
      | .next t => some (t.rst, t.now)
      | _ => none) = some (true, 1000#32) := by decide
theorem test_held_reset_blocks_host :
    step { hosting [.blk (.poll 3#4 6#3 100#16)] State.reset with rst := true } =
      .next { hosting [.blk (.poll 3#4 6#3 100#16)] State.reset with rst := true, inputs := [] } := rfl
theorem test_held_reset_blocks_tick :
    step { State.reset with rst := true, inputs := [.tick] } = .next { State.reset with rst := true } := rfl
/-- The instant that releases `rst` may present a word, which is accepted. -/
theorem test_release_accepts :
    portAfter 2#4 (step { State.reset with rst := true, inputs := [.pins (commandPins 0x20006372#32)] }) =
      some 0x6372#32 := by decide
/-- The clock wraps (20_memory.md R66). -/
theorem test_tick_wraps :
    (match step { State.reset with now := 0xFFFFFFFF#32, inputs := [.tick] } with
      | .next t => t.now
      | _ => 1#32) = 0#32 := by decide
/-- The word is run by the very next step. -/
theorem test_fetch : portAfter 2#4 (step (State.reset.withFetchWord 32 0x20006372)) = some 0x6372#32 := by decide

/-! ### The host software (95_test_vectors.md section 1, P4) -/

theorem test_classify : [0x00#8, 0xFF#8, 0x01#8, 0x0D#8, 0x14#8, 0x15#8, 0x42#8].map classify =
    [.engineeringSample, .engineeringSample, .compatibleSHT25, .model7013, .model7020, .model7021, .unknown] := by
  decide
theorem test_revision : [0xFF#8, 0x20#8, 0x00#8, 0x41#8].map revisionOf = [1#8, 2#8, 0#8, 0x41#8] := by decide
/-- P4 step 10: 12 21 34 01 56 D8 78 41 gives 0x12345678. -/
theorem test_serialHigh :
    (match step (hosting [.setSerialHigh] (withBlock { Block.reset with
        buf := [(0, 0x12#8), (1, 0x21#8), (2, 0x34#8), (3, 0x01#8), (4, 0x56#8), (5, 0xD8#8), (6, 0x78#8),
          (7, 0x41#8)] })) with
      | .next t => t.host.session.serialHigh
      | _ => 0#32) = 0x12345678#32 := by decide
/-- R204: a populated half of the serial number keeps its value. -/
theorem test_serialHigh_kept :
    populateSerialHigh 7#32 (populateSerialHigh 0x12345678#32 HostAgent.start.session) =
      { HostAgent.start.session with serialHigh := 0x12345678#32, serialHighPopulated := true } := by decide
/-- P4 step 18: 15 FF B5 FF FF 2D gives 0x15FFFFFF. -/
theorem test_serialLow :
    (match step (hosting [.setSerialLow] (withBlock { Block.reset with
        buf := [(0, 0x15#8), (1, 0xFF#8), (2, 0xB5#8), (3, 0xFF#8), (4, 0xFF#8), (5, 0x2D#8)] })) with
      | .next t => t.host.session.serialLow
      | _ => 0#32) = 0x15FFFFFF#32 := by decide

/-! ### Witnesses: states and operands that meet the hypotheses of the statements, at the ends of their ranges -/

theorem witness_CfgAddrWritesTheBusAddress : (Instr.poll 1#4 2#3 0#16).wellFormed = true := by decide

theorem witness_CrcBufComputesOverTheBuffer :
    ((8#4).toNat + (0#4).toNat ≤ 8 ∧ (0#4).toNat + (8#4).toNat ≤ 8) ∧ 8 < (8#4).toNat + (1#4).toNat := by decide

theorem witness_CrcVfyChecksTheGroup :
    (1 ≤ (2#4).toNat ∧ (0#4).toNat + (2#4).toNat ≤ 7 ∧
      (0#4).toNat + (2#4).toNat + 1 ≤ (received 0xE2#8).bufcnt.toNat ∧
      crc8Compute (readBytes (received 0xE2#8).buf 0 2) = Memory.read (received 0xE2#8).buf 2 ∧
      crc8Compute (readBytes (received 0xE3#8).buf 0 2) ≠ Memory.read (received 0xE3#8).buf 2) ∧
    (1 ≤ (7#4).toNat ∧ (0#4).toNat + (7#4).toNat ≤ 7) ∧ (1 ≤ (1#4).toNat ∧ (6#4).toNat + (1#4).toNat ≤ 7) ∧
    ((0#4).toNat = 0 ∧ 7 < (0#4).toNat + (8#4).toNat) := by decide +kernel

theorem witness_SmpLdLoadsFromTheBuffer : (6#4).toNat ≤ 6 ∧ 6 < (7#4).toNat := by decide

theorem witness_DecRhDecodesOrGivesTheSentinel :
    (sampled 0x6372#16).rawv = true ∧ State.reset.block.rawv = false := by decide

theorem witness_DecTDecodesOrGivesTheSentinel :
    (sampled 0x6372#16).rawv = true ∧ State.reset.block.rawv = false := by decide

theorem witness_HumidityIsExactAndClampedAbove :
    (55574#16 : Half).toNat ≤ 55574 ∧ 55575 ≤ (55575#16 : Half).toNat := by decide

theorem witness_TemperatureIncreasesStrictly : (17473#16 : Half).toNat < (17474#16 : Half).toNat := by decide

theorem witness_RoundingKeepsBinary32Data :
    (1 ≤ ((0x00800000#32).extractLsb' 23 8).toNat ∧ ((0x00800000#32).extractLsb' 23 8).toNat ≤ 254) ∧
      1 ≤ ((0xFF7FFFFF#32).extractLsb' 23 8).toNat ∧ ((0xFF7FFFFF#32).extractLsb' 23 8).toNat ≤ 254 := by decide

theorem witness_PollStartClearsLatchesAndRequests :
    (1 ≤ (1#4).toNat ∧ (8#4).toNat ≤ 8 ∧ 2 ≤ (2#3).toNat ∧ (6#3).toNat ≤ 6) ∧
    (0#4).toNat = 0 ∧ 8 < (9#4).toNat ∧ (1#3).toNat < 2 ∧ 6 < (7#3).toNat := by decide

/-- The invariants hold in a state with an outstanding request. -/
theorem stateInv_requesting : StateInv (requesting 1001#32) where
  block := {
    endsExclude := by decide
    countIsTarget := by decide
    countBound := by decide
    zeroBeyondCount := fun _ _ => rfl
    stateCode := by decide
    busyClear := by decide
    successCount := by decide }
  buffer := by decide
  heldReset := by decide

/-- The invariants hold after a successful poll. -/
theorem stateInv_received : StateInv (withBlock (received 0xE2#8)) where
  block := {
    endsExclude := by decide
    countIsTarget := by decide
    countBound := by decide
    zeroBeyondCount := by
      intro i hi
      have h : 3 ≤ i := hi
      have h0 : 0 ≠ i := by omega
      have h1 : 1 ≠ i := by omega
      have h2 : 2 ≠ i := by omega
      simp [withBlock, received, Memory.read, h0, h1, h2, Memory.unlisted]
    stateCode := by decide
    busyClear := by decide
    successCount := by decide }
  buffer := by decide
  heldReset := by decide

/-- The invariants hold while `rst` is asserted. -/
theorem stateInv_held : StateInv { State.reset with rst := true } where
  block := {
    endsExclude := by decide
    countIsTarget := by decide
    countBound := by decide
    zeroBeyondCount := fun _ _ => rfl
    stateCode := by decide
    busyClear := by decide
    successCount := by decide }
  buffer := by decide
  heldReset := fun _ => rfl

theorem witness_ExactAnswerEndsThePoll :
    StateInv (requesting 1001#32) ∧ (responsePins 3#4 0#64).rst = false ∧ (responsePins 3#4 0#64).rspValid = true ∧
      (requesting 1001#32).block.ps = .req ∧
      (responsePins 3#4 0#64).rspCount = (requesting 1001#32).block.pn :=
  ⟨stateInv_requesting, by decide⟩

theorem witness_OtherAnswerGoesToSleep :
    (responsePins 4#4 0#64).rst = false ∧ (responsePins 4#4 0#64).rspValid = true ∧
      (requesting 1001#32).block.ps = .req ∧
      (responsePins 4#4 0#64).rspCount ≠ (requesting 1001#32).block.pn := by decide

theorem witness_WakeWaitsForTheBackoff :
    State.reset.block.ps ≠ .sleep ∧
      ((1006#32 : Word) - (sleeping 1006#32 1001#32).block.ts).toNat < (sleeping 1006#32 1001#32).block.pb.toNat := by
  decide

theorem witness_EnabledWakeRetriesOrTimesOut :
    (sleeping 1100#32 1090#32).rst = false ∧ (sleeping 1100#32 1090#32).block.ps = .sleep ∧
      (sleeping 1100#32 1090#32).block.pb.toNat ≤ ((1100#32 : Word) - (sleeping 1100#32 1090#32).block.ts).toNat ∧
      ((1100#32 : Word) - (sleeping 1100#32 1090#32).block.t0).toNat ≤ (sleeping 1100#32 1090#32).block.pt.toNat ∧
      (sleeping 1101#32 1090#32).block.pt.toNat < ((1101#32 : Word) - (sleeping 1101#32 1090#32).block.t0).toNat := by
  decide

theorem witness_AFailedRoundEndsAtItsTrueTime :
    (requesting 1001#32).rst = false ∧ (requesting 1001#32).block.ps = .req ∧ (responsePins 0#4 0#64).rst = false ∧
      (responsePins 0#4 0#64).rspValid = true ∧ (responsePins 0#4 0#64).rspCount ≠ (requesting 1001#32).block.pn ∧
      ((requesting 1001#32).now - (requesting 1001#32).block.t0).toNat + 93 +
        (requesting 1001#32).block.pb.toNat + 1 < 2 ^ 32 := by decide

theorem witness_NothingCancelsAPoll :
    (pinned (commandPins 0#32) (requesting 1001#32)).block.ps ≠ .idle ∧
      step (pinned (commandPins 0#32) (requesting 1001#32)) = .next (requesting 1001#32) ∧
      ¬resetsNext (pinned (commandPins 0#32) (requesting 1001#32)) :=
  ⟨by decide, rfl, by unfold resetsNext; decide⟩

theorem witness_IdealFailingPollTimesOut :
    State.reset.block.ps = .idle ∧ (Instr.poll 3#4 6#3 100#16).wellFormed = true ∧
      17 = (100#16).toNat / (6#3).toNat + 1 ∧ 1 = (0#16).toNat / (2#3).toNat + 1 := by decide

theorem witness_StepRunsTheDecodedCommand :
    State.reset.block.ps = .idle ∧ (commandPins 0x21000060#32).rst = false ∧
      (commandPins 0x21000060#32).cmdValid = true ∧
      decode (commandPins 0x21000060#32).cmdWord = .ok (.smpLd 6#4) := by decide

theorem witness_IllegalWordSetsOnlyCmderr :
    State.reset.block.ps = .idle ∧ (commandPins 0x21000070#32).rst = false ∧
      (commandPins 0x21000070#32).cmdValid = true ∧ ¬legalWord (commandPins 0x21000070#32).cmdWord :=
  ⟨by decide, by decide, by decide, by unfold legalWord; decide⟩

theorem witness_BusyBlockTakesNoWord :
    (requesting 1001#32).block.ps ≠ .idle ∧ (commandPins 0#32).rst = false ∧
      (commandPins 0#32).rspValid = false := by decide

theorem witness_ReadsAndStrayAnswersChangeNothing :
    (responsePins 3#4 0#64).rst = false ∧ (responsePins 3#4 0#64).cmdValid = false ∧ idlePins.rspValid = false ∧
      State.reset.block.ps ≠ .req := by decide

theorem witness_ResetSetsEveryElement :
    resetPins.rst = true ∧ ({ requesting 1001#32 with rst := true } : State).rst = true ∧
      (∀ p, Input.tick ≠ .pins p) ∧ (∀ p, Input.host ≠ .pins p) := by simp [resetPins]

theorem witness_StatusPacksTheFlags :
    State.reset.block.ps = .idle ∧ (requesting 0#32).block.ps = .req ∧ (sleeping 0#32 0#32).block.ps = .sleep := by
  decide

theorem witness_ReadPortPacksTheOtherRegisters : 10 ≤ (10#4).toNat := by decide

theorem witness_OnlyTicksMoveTheClock :
    State.reset.rst = false ∧ step (pinned idlePins State.reset) = .next State.reset ∧
      nextEvent (pinned idlePins State.reset) ≠ some .tick :=
  ⟨rfl, rfl, by decide⟩

theorem witness_CmderrIsStickyUntilReset :
    (∃ t, step (pinned (commandPins 0xFFFFFFFF#32) State.reset) = .next t ∧ t.block.cmderr = true) ∧
      nextEvent (pinned (commandPins 0xFFFFFFFF#32) State.reset) = some (.accept 0xFFFFFFFF#32) ∧
      ¬legalWord 0xFFFFFFFF#32 :=
  ⟨⟨_, rfl, by decide⟩, by decide, by unfold legalWord; decide⟩

theorem witness_PollEndFlagsFollowTheirEvents :
    (∃ t, step (pinned (responsePins 3#4 0#64) (requesting 1001#32)) = .next t ∧ t.block.pok = true) ∧
      (∃ t, step { sleeping 1101#32 1090#32 with inputs := [.wake] } = .next t ∧ t.block.pto = true) ∧
      StateInv (requesting 1001#32) :=
  ⟨⟨_, rfl, by decide⟩, ⟨_, rfl, by decide⟩, stateInv_requesting⟩

theorem witness_CrcerrFollowsItsEvents :
    (∃ t, step (pinned (commandPins 0x13000002#32) (withBlock (received 0xE3#8))) = .next t ∧
      t.block.crcerr = true) ∧
    nextCommand (pinned (commandPins 0x13000002#32) (withBlock (received 0xE3#8))) = some (.crcVfy 0#4 2#4) ∧
    (∃ t, step (pinned (commandPins 0x21000000#32) (withBlock { received 0xE3#8 with crcerr := true })) = .next t) :=
  ⟨⟨_, rfl, by decide +kernel⟩, by decide +kernel, ⟨_, rfl⟩⟩

theorem witness_RawvFollowsItsEvents :
    ∃ t, step (pinned (commandPins 0x21000010#32) (withBlock (received 0xE2#8))) = .next t ∧ t.block.rawv = true :=
  ⟨_, rfl, by decide⟩

theorem witness_EveryElementHasOnlyItsWriters :
    (∃ t, step (pinned (commandPins 0x10000000#32) State.reset) = .next t) ∧
      ¬resetsNext (pinned (commandPins 0x10000000#32) State.reset) :=
  ⟨⟨_, rfl⟩, by unfold resetsNext; decide⟩

theorem witness_EveryStepCompletesAndKeepsTheInvariants :
    StateInv (requesting 1001#32) ∧ StateInv (withBlock (received 0xE2#8)) ∧
      StateInv { State.reset with rst := true } ∧
      nextCommand (pinned (commandPins 0x21000010#32) (withBlock (received 0xE2#8))) = some (.smpLd 1#4) :=
  ⟨stateInv_requesting, stateInv_received, stateInv_held, by decide⟩

theorem witness_EveryStepKeepsTheOutstandingRequest :
    OutstandingInv (requesting 1001#32) ∧ (requesting 1001#32).block.ps = .req ∧
      ∃ t, step { requesting 1001#32 with inputs := [.tick] } = .next t :=
  ⟨fun _ => rfl, rfl, ⟨_, rfl⟩⟩

theorem witness_RequestsAreMadeOneAtATime :
    ∃ t, step { sleeping 1100#32 1090#32 with inputs := [.wake] } = .next t ∧ t.history.length = 3 :=
  ⟨_, rfl, by decide⟩

theorem witness_DecodeOfEncodeIsTheInstruction :
    (Instr.poll 8#4 6#3 0xFFFF#16).wellFormed = true ∧ (Instr.crcBuf 8#4 0#4).wellFormed = true ∧
      (Instr.crcVfy 0#4 7#4).wellFormed = true ∧ (Instr.smpLd 6#4).wellFormed = true := by decide

theorem witness_DecodedWordIsTheEncoding : decode 0x3086FFFF#32 = .ok (.poll 8#4 6#3 0xFFFF#16) := by decide

theorem witness_ClassifyIsTheTable : 0x42#8 ∉ [0x00#8, 0xFF#8, 0x01#8, 0x0D#8, 0x14#8, 0x15#8] := by decide

theorem witness_UnacknowledgedMeasurementIsTheSentinel :
    State.reset.rst = false ∧ State.reset.block.ps = .idle ∧ State.reset.host.code = [] ∧ (2 : Nat) ≠ 0 := by
  decide

theorem witness_MeasurementReturnsTheDecodedSample :
    (hosting ((measureCode 0xF5#8 .decRh).drop 2) (withBlock (received 0xE2#8))).rst = false ∧
      (hosting ((measureCode 0xF5#8 .decRh).drop 2) (withBlock (received 0xE2#8))).block.ps = .idle ∧
      (hosting ((measureCode 0xF5#8 .decRh).drop 2) (withBlock (received 0xE2#8))).host.code =
        (measureCode 0xF5#8 .decRh).drop 2 ∧
      (received 0xE2#8).crcerr = false ∧ 3 ≤ (received 0xE2#8).bufcnt.toNat ∧
      crc8Compute [Memory.read (received 0xE2#8).buf 0, Memory.read (received 0xE2#8).buf 1] =
        Memory.read (received 0xE2#8).buf 2 ∧
      ¬3 ≤ Block.reset.bufcnt.toNat := by decide +kernel

theorem witness_IdentityFieldsChangeOnlyAtTheirActions :
    ∃ t, step (hosting [.classifyModel] State.reset) = .next t ∧ t.host.session.model = .engineeringSample ∧
      t.host.session.modelPopulated = true :=
  ⟨_, rfl, by decide⟩

theorem witness_HostWritesOnlyWhileNoPollRuns :
    ∃ t, step (hosting [.send [0xF5#8] .nak] State.reset) = .next t ∧ t.host.writes.length = 1 :=
  ⟨_, rfl, rfl⟩

theorem witness_InitializeReportsAMissingSensor :
    (State.reset.rst = false ∧ State.reset.block.ps = .idle ∧ State.reset.host.code = [] ∧ (2 : Nat) ≠ 0) ∧
      ∃ s : State, s.rst = false ∧ s.block.ps = .idle ∧ s.host.code = initializeCode.drop 10 ∧
        Memory.read s.block.buf 0 ≠ 0x3A#8 :=
  ⟨by decide, hosting (initializeCode.drop 10) (withBlock (received 0xE2#8)), rfl, rfl, rfl, by decide⟩

/-- What stands at the place the second half of `InitializeReportsAMissingSensor` begins. -/
theorem test_initialize_place : (initializeCode.drop 10).head? = some (.needUserRegister 0x3A#8 .failed) := rfl

theorem witness_ResolverReturnsEarly :
    (∃ s : State, s.rst = false ∧ s.block.ps = .idle ∧
      s.host.code = resolveCode.drop 2 ++ [.ret .done] ∧ s.block.pok = false) ∧
    (∃ s : State, s.rst = false ∧ s.block.ps = .idle ∧
      s.host.code = resolveCode.drop 11 ++ [.ret .done] ∧ s.block.pok = false) ∧
    (∃ s : State, s.rst = false ∧ s.block.ps = .idle ∧
      s.host.code = resolveCode.drop 7 ++ [.ret .done] ∧ s.block.crcerr = true) ∧
    ∃ s : State, s.rst = false ∧ s.block.ps = .idle ∧
      s.host.code = resolveCode.drop 14 ++ [.ret .done] ∧ s.block.crcerr = true :=
  ⟨⟨hosting (resolveCode.drop 2 ++ [.ret .done]) State.reset, rfl, rfl, rfl, rfl⟩,
    ⟨hosting (resolveCode.drop 11 ++ [.ret .done]) State.reset, rfl, rfl, rfl, rfl⟩,
    ⟨hosting (resolveCode.drop 7 ++ [.ret .done]) (withBlock { received 0xE3#8 with crcerr := true }),
      rfl, rfl, rfl, rfl⟩,
    ⟨hosting (resolveCode.drop 14 ++ [.ret .done]) (withBlock { received 0xE3#8 with crcerr := true }),
      rfl, rfl, rfl, rfl⟩⟩

theorem witness_IdentityFieldsAreAssembledFromTheBuffer :
    State.reset.block.ps = .idle ∧
      (hosting [.setSerialHigh] State.reset).host.code = .setSerialHigh :: [] ∧
      State.reset.host.session.serialHighPopulated = false ∧ State.reset.host.session.serialLowPopulated = false ∧
      State.reset.host.session.modelPopulated = false ∧
      (populateSerialHigh 7#32 HostAgent.start.session).serialHighPopulated = true ∧
      (populateSerialLow 7#32 HostAgent.start.session).serialLowPopulated = true ∧
      (populateModel .model7021 HostAgent.start.session).modelPopulated = true ∧
      Memory.read [(0, 0xFF#8)] 0 = 0xFF#8 ∧ Memory.read [(0, 0x20#8)] 0 = 0x20#8 ∧
      Memory.read [] 0 ≠ 0xFF#8 ∧ Memory.read [] 0 ≠ 0x20#8 := by decide

end Sys2Proof.Tests
end

section
/-! The laws the proofs about the block's elements rest on: which words the decoder accepts, and what a step can do to the
block and to the transport port, as one case analysis. -/

open Sys2Proof.Spec

namespace Sys2Proof.Machine

/-! ### Legal words -/

theorem extractLsb'_toNat_div (w : Word) (s n : Nat) :
    (w.extractLsb' s n).toNat = w.toNat / 2 ^ s % 2 ^ n := by
  rw [BitVec.extractLsb'_toNat, Nat.shiftRight_eq_div_pow]

/-- 30_encoding.md R98 by the opcode map: a word is legal when it matches a row and its operands are in range. -/
theorem legalWord_iff_row (w : Word) :
    legalWord w ↔ ∃ r ∈ opcodeMap, rowSelects r w = true ∧ (buildInstr r.code w).wellFormed = true := by
  simp only [opcodeMap, List.mem_cons, List.not_mem_nil, or_false, exists_eq_or_imp, exists_eq_left, rowSelects,
    beq_iff_eq, buildInstr, wellFormed_crcBuf, wellFormed_crcVfy, wellFormed_smpLd, wellFormed_poll,
    extractLsb'_toNat_div]
  simp [legalWord, Instr.wellFormed, and_assoc]

/-- The decoder accepts exactly the legal words (30_encoding.md R99). -/
theorem decode_ok_iff_legalWord (w : Word) : (∃ i, decode w = .ok i) ↔ legalWord w := by
  rw [legalWord_iff_row]
  constructor
  · rintro ⟨i, hd⟩
    obtain ⟨r, hr, hs, rfl, hw⟩ := row_of_decode hd
    exact ⟨r, hr, hs, hw⟩
  · rintro ⟨r, hr, hs, hw⟩
    exact ⟨_, by rw [decode_of_row hr hs, if_pos hw]⟩

theorem legalWord_of_decode {w : Word} {i : Instr} (hd : decode w = .ok i) : legalWord w :=
  (decode_ok_iff_legalWord w).mp ⟨i, hd⟩

theorem illegal_of_decode {w : Word} {e : Illegal} (hd : decode w = .error e) : ¬legalWord w := by
  rw [← decode_ok_iff_legalWord, hd]
  simp

theorem decode_of_illegal {w : Word} (hl : ¬legalWord w) : ∃ e, decode w = .error e := by
  cases hd : decode w with
  | ok i => exact absurd (legalWord_of_decode hd) hl
  | error e => exact ⟨e, rfl⟩

/-! ### The cases of a step -/

/-- What a step from `s` to `t` can do to the block and to the transport port, and by which event: one case per event of
00_scope.md R7 and outcome of its test. -/
inductive StepCase (s t : State) : Prop where
  /-- No event, a read or a tick. -/
  | quiet (he : nextEvent s = none ∨ (∃ k, nextEvent s = some (.read k)) ∨ nextEvent s = some .tick)
      (hn : nextCommand s = none) (hb : t.block = s.block) (hh : t.history = s.history)
  /-- The command `i` is accepted. -/
  | command (w : Word) (i : Instr) (he : nextEvent s = some (.accept w)) (hd : decode w = .ok i)
      (hn : nextCommand s = some i) (hb : t.block = commandEffect i s.now s.block)
      (hh : t.history = s.history ++ commandEmits i s.block)
  /-- An illegal word is accepted. -/
  | illegal (w : Word) (he : nextEvent s = some (.accept w)) (hl : ¬legalWord w) (hn : nextCommand s = none)
      (hb : t.block = { s.block with cmderr := true }) (hh : t.history = s.history)
  /-- The answer with exactly `PN` bytes. -/
  | exactAnswer (d : BitVec 64) (he : nextEvent s = some (.respond s.block.pn d)) (hn : nextCommand s = none)
      (hb : t.block = attemptSucceeds d s.block) (hh : t.history = s.history ++ [.response s.block.pn d])
  /-- An answer with another count. -/
  | otherAnswer (cnt : BitVec 4) (d : BitVec 64) (he : nextEvent s = some (.respond cnt d)) (hc : cnt ≠ s.block.pn)
      (hn : nextCommand s = none) (hb : t.block = attemptFails s.now s.block)
      (hh : t.history = s.history ++ [.response cnt d])
  /-- A `wake` that is not enabled. -/
  | idleWake (he : nextEvent s = some .wake) (hw : ¬wakeEnabled s.now s.block = true) (hn : nextCommand s = none)
      (hb : t.block = s.block) (hh : t.history = s.history)
  /-- An enabled `wake` past the deadline. -/
  | timeout (he : nextEvent s = some .wake) (hw : wakeEnabled s.now s.block = true)
      (hp : deadlinePassed s.now s.block = true) (hn : nextCommand s = none)
      (hb : t.block = { s.block with pto := true, ps := .idle }) (hh : t.history = s.history)
  /-- An enabled `wake` before the deadline. -/
  | retry (he : nextEvent s = some .wake) (hw : wakeEnabled s.now s.block = true)
      (hp : ¬deadlinePassed s.now s.block = true) (hn : nextCommand s = none)
      (hb : t.block = { s.block with ps := .req })
      (hh : t.history = s.history ++ [.request s.block.addr s.block.pn])
  /-- The reset. -/
  | reset (he : nextEvent s = some .reset) (hn : nextCommand s = none) (hb : t.block = Block.reset)
      (hh : t.history = s.history)

/-- The cases of an accepted word, by its decoding. -/
theorem StepCase.of_accept {s t : State} {w : Word} (he : nextEvent s = some (.accept w))
    (hb : t.block = acceptEffect (decode w) s.now s.block)
    (hh : t.history = s.history ++ acceptEmits (decode w) s.block) : StepCase s t := by
  cases hd : decode w with
  | ok i =>
    rw [hd] at hb hh
    exact .command w i he hd (nextCommand_eq_some.mpr ⟨w, he, hd⟩) hb hh
  | error e =>
    rw [hd] at hb hh
    exact .illegal w he (illegal_of_decode hd) (no_command_of_illegal he hd) hb (by simpa [acceptEmits] using hh)

/-- The cases of an answer, by its count. -/
theorem StepCase.of_respond {s t : State} {cnt : BitVec 4} {d : BitVec 64}
    (he : nextEvent s = some (.respond cnt d)) (hb : t.block = eventEffect (.respond cnt d) s.now s.block)
    (hh : t.history = s.history ++ eventEmits (.respond cnt d) s.now s.block) : StepCase s t := by
  have hps := req_of_respond he
  have hn := no_command_of_event he (by simp)
  simp only [eventEffect, eventEmits, hps, if_true] at hb hh
  by_cases hc : cnt = s.block.pn
  · subst hc
    exact .exactAnswer d he hn (by simpa using hb) hh
  · exact .otherAnswer cnt d he hc hn (by simpa [hc] using hb) hh

/-- The cases of a `wake`, by its guard and the deadline. -/
theorem StepCase.of_wake {s t : State} (he : nextEvent s = some .wake)
    (hb : t.block = eventEffect .wake s.now s.block)
    (hh : t.history = s.history ++ eventEmits .wake s.now s.block) : StepCase s t := by
  have hn := no_command_of_event he (by simp)
  by_cases hw : wakeEnabled s.now s.block = true
  · by_cases hp : deadlinePassed s.now s.block = true
    · exact .timeout he hw hp hn (by simpa [eventEffect, hw, hp] using hb) (by simpa [eventEmits, hw, hp] using hh)
    · exact .retry he hw hp hn (by simpa [eventEffect, hw, hp] using hb) (by simpa [eventEmits, hw, hp] using hh)
  · exact .idleWake he hw hn (by simpa [eventEffect, hw] using hb) (by simpa [eventEmits, hw] using hh)

/-- Every step is one of the cases. -/
theorem step_cases {s t : State} (h : step s = .next t) : StepCase s t := by
  cases he : nextEvent s with
  | none =>
    obtain ⟨hb, -, hh⟩ := step_of_no_event h he
    exact .quiet (.inl he) (no_command_of_no_event he) hb hh
  | some e =>
    obtain ⟨hb, -, hh⟩ := step_of_event h he
    cases e with
    | accept w => exact .of_accept he hb hh
    | respond cnt d => exact .of_respond he hb hh
    | wake => exact .of_wake he hb hh
    | read k =>
      exact .quiet (.inr (.inl ⟨k, he⟩)) (no_command_of_event he (by simp)) hb (by simpa [eventEmits] using hh)
    | tick => exact .quiet (.inr (.inr he)) (no_command_of_event he (by simp)) hb (by simpa [eventEmits] using hh)
    | reset => exact .reset he (no_command_of_event he (by simp)) hb (by simpa [eventEmits] using hh)

/-- A quiet step is none of the events that write the block. -/
theorem quiet_no_event {s : State}
    (he : nextEvent s = none ∨ (∃ k, nextEvent s = some (.read k)) ∨ nextEvent s = some .tick) :
    ¬resetsNext s ∧ nextEvent s ≠ some .wake ∧ (∀ cnt d, nextEvent s ≠ some (.respond cnt d)) ∧
      ∀ w, nextEvent s ≠ some (.accept w) := by
  rcases he with he | ⟨k, he⟩ | he <;> simp [resetsNext, he]

/-! ### What a command does to each element -/

/-- The flags after `CRC.VFY` (41_crc.md R126, R127), as one record. -/
@[simp] theorem flagVerification_eq (ok : Bool) (b : Block) :
    flagVerification ok b = { b with crcerr := !ok || b.crcerr, rawv := ok && b.rawv } := by
  cases ok <;> rfl

/-- The block after `CLRF` (44_system.md R191), as one record. -/
@[simp] theorem clearFlags_eq (b : Block) : clearFlags b = { b with pok := false, pto := false, crcerr := false } := rfl

/-- The block after a `POLL` start (43_poll.md R162), as one record. -/
@[simp] theorem startPoll_eq (n : BitVec 4) (c : BitVec 3) (x : BitVec 16) (now : Word) (b : Block) :
    startPoll n c x now b =
      { b with
        buf := [], bufcnt := 0#4, pok := false, pto := false, rawv := false, crcerr := false,
        pn := n, pb := c, pt := x, t0 := now, ps := .req } := rfl

/-! The elements one by one: each is kept unless the command is one of its writers (10_state.md R20). -/

section
variable (i : Instr) (now : Word) (b : Block)

theorem commandEffect_ts : (commandEffect i now b).ts = b.ts := by
  cases i <;> simp [commandEffect]

theorem commandEffect_cmderr : (commandEffect i now b).cmderr = b.cmderr := by
  cases i <;> simp [commandEffect]

theorem commandEffect_crc : (commandEffect i now b).crc = b.crc ∨ i = .crcClr ∨ (∃ x, i = .crcByte x) ∨
    (∃ o l, i = .crcBuf o l) ∨ ∃ o l, i = .crcVfy o l := by
  cases i <;> simp [commandEffect]

theorem commandEffect_raw : (commandEffect i now b).raw = b.raw ∨ (∃ x, i = .smpSet x) ∨ ∃ o, i = .smpLd o := by
  cases i <;> simp [commandEffect]

theorem commandEffect_result : (commandEffect i now b).result = b.result ∨ i = .decRh ∨ i = .decT := by
  cases i <;> simp [commandEffect]

theorem commandEffect_addr : (commandEffect i now b).addr = b.addr ∨ ∃ x, i = .cfgAddr x := by
  cases i <;> simp [commandEffect]

theorem commandEffect_latches :
    ((commandEffect i now b).pn = b.pn ∧ (commandEffect i now b).pb = b.pb ∧ (commandEffect i now b).pt = b.pt ∧
      (commandEffect i now b).t0 = b.t0) ∨ ∃ n c x, i = .poll n c x := by
  cases i <;> simp [commandEffect]

theorem commandEffect_buf :
    ((commandEffect i now b).buf = b.buf ∧ (commandEffect i now b).bufcnt = b.bufcnt) ∨ ∃ n c x, i = .poll n c x := by
  cases i <;> simp [commandEffect]

theorem commandEffect_ps : (commandEffect i now b).ps = b.ps ∨ ∃ n c x, i = .poll n c x := by
  cases i <;> simp [commandEffect]

/-- 10_state.md R31: of the commands only `CLRF` and `POLL` clear `POK`, and none sets it. -/
theorem commandEffect_pok : (commandEffect i now b).pok = true ↔
    b.pok = true ∧ i ≠ .clrf ∧ ∀ n c x, i ≠ .poll n c x := by
  cases i <;> simp [commandEffect]

/-- 10_state.md R31: of the commands only `CLRF` and `POLL` clear `PTO`, and none sets it. -/
theorem commandEffect_pto : (commandEffect i now b).pto = true ↔
    b.pto = true ∧ i ≠ .clrf ∧ ∀ n c x, i ≠ .poll n c x := by
  cases i <;> simp [commandEffect]

/-- 10_state.md R32: of the commands only a failing `CRC.VFY` sets `CRCERR`, and `CLRF` and `POLL` clear it. -/
theorem commandEffect_crcerr : (commandEffect i now b).crcerr = true ↔
    (∃ off len, i = .crcVfy off len ∧ ¬groupVerifies b off len = true) ∨
    (b.crcerr = true ∧ i ≠ .clrf ∧ ∀ n c x, i ≠ .poll n c x) := by
  cases i <;> simp [commandEffect]

/-- 10_state.md R23: the commands that set `RAWV` and those that clear it. -/
theorem commandEffect_rawv : (commandEffect i now b).rawv = true ↔
    (∃ x, i = .smpSet x) ∨ (∃ off, i = .smpLd off ∧ loadedValid b off = true) ∨
    (b.rawv = true ∧ i ≠ .smpInv ∧ (∀ off, i ≠ .smpLd off) ∧ (∀ n c x, i ≠ .poll n c x) ∧
      ∀ off len, i = .crcVfy off len → groupVerifies b off len = true) := by
  cases i <;> simp [commandEffect, and_comm]

/-! The flags' writers, whatever value they write. -/

theorem commandEffect_pok_writers :
    (commandEffect i now b).pok = b.pok ∨ (∃ n c x, i = .poll n c x) ∨ i = .clrf := by
  cases i <;> simp [commandEffect]

theorem commandEffect_pto_writers :
    (commandEffect i now b).pto = b.pto ∨ (∃ n c x, i = .poll n c x) ∨ i = .clrf := by
  cases i <;> simp [commandEffect]

theorem commandEffect_crcerr_writers :
    (commandEffect i now b).crcerr = b.crcerr ∨ (∃ o l, i = .crcVfy o l) ∨ (∃ n c x, i = .poll n c x) ∨
      i = .clrf := by
  cases i <;> simp [commandEffect]

theorem commandEffect_rawv_writers :
    (commandEffect i now b).rawv = b.rawv ∨ (∃ x, i = .smpSet x) ∨ (∃ o, i = .smpLd o) ∨ i = .smpInv ∨
      (∃ o l, i = .crcVfy o l) ∨ ∃ n c x, i = .poll n c x := by
  cases i <;> simp [commandEffect]

end

end Sys2Proof.Machine
end

section
/-! The invariants of 10_state.md R41 and R42 and of 70_reset_and_hazards.md R260: they hold at reset, each case of a step
keeps them, and every step completes. -/

namespace Sys2Proof.Machine

/-! ### The invariants of R41 through each case -/

/-- Every value of `PS` has one of the three codes (R41 (d)). -/
theorem pollStateBits_cases (p : PollState) :
    pollStateBits p = 0#2 ∨ pollStateBits p = 2#2 ∨ pollStateBits p = 3#2 := by
  cases p <;> simp [pollStateBits]

theorem blockInv_reset : BlockInv Block.reset where
  endsExclude := by decide
  countIsTarget := by decide
  countBound := by decide
  zeroBeyondCount := fun _ _ => rfl
  stateCode := pollStateBits_cases _
  busyClear := by decide
  successCount := by decide

/-- A change that leaves the block idle, keeps the buffer, its count and the target, and sets neither end flag. -/
theorem BlockInv.to_idle {b b' : Block} (hi : BlockInv b) (hps : b'.ps = .idle) (hbuf : b'.buf = b.buf)
    (hcnt : b'.bufcnt = b.bufcnt) (hpn : b'.pn = b.pn) (hpok : b'.pok = true → b.pok = true)
    (hpto : b'.pto = true → b.pto = true) : BlockInv b' where
  endsExclude := fun ⟨h1, h2⟩ => hi.endsExclude ⟨hpok h1, hpto h2⟩
  countIsTarget := by rw [hcnt, hpn]; exact hi.countIsTarget
  countBound := by rw [hcnt]; exact hi.countBound
  zeroBeyondCount := by rw [hcnt, hbuf]; exact hi.zeroBeyondCount
  stateCode := pollStateBits_cases _
  busyClear := fun h => absurd hps h
  successCount := by rw [hcnt, hpn]; exact fun h => hi.successCount (hpok h)

/-- While a poll runs, its control state may change to any other. -/
theorem BlockInv.busy_move {b : Block} (hi : BlockInv b) (hbusy : b.ps ≠ .idle) (p : PollState) (ts : Word) :
    BlockInv { b with ps := p, ts := ts } where
  endsExclude := hi.endsExclude
  countIsTarget := hi.countIsTarget
  countBound := hi.countBound
  zeroBeyondCount := hi.zeroBeyondCount
  stateCode := pollStateBits_cases _
  busyClear := fun _ => hi.busyClear hbusy
  successCount := hi.successCount

theorem blockInv_startPoll {n : BitVec 4} {c : BitVec 3} {x : BitVec 16} (now : Word) (b : Block)
    (hw : (Instr.poll n c x).wellFormed = true) : BlockInv (startPoll n c x now b) := by
  obtain ⟨⟨hn1, hn8⟩, hc2, hc6⟩ := (wellFormed_poll n c x).mp hw
  constructor <;> simp [pollStateBits_cases, hn1, hn8, hc2, hc6]

/-- An accepted command keeps the invariants: a `POLL` starts afresh, any other leaves the transaction as it was. -/
theorem BlockInv.command {i : Instr} {b : Block} (hi : BlockInv b) (now : Word) (hps : b.ps = .idle)
    (hw : i.wellFormed = true) : BlockInv (commandEffect i now b) := by
  by_cases hp : ∃ n c x, i = .poll n c x
  · obtain ⟨n, c, x, rfl⟩ := hp
    exact blockInv_startPoll now b hw
  · obtain ⟨hbuf, hcnt⟩ := (commandEffect_buf i now b).resolve_right hp
    have hpn := ((commandEffect_latches i now b).resolve_right hp).1
    have hps' := (commandEffect_ps i now b).resolve_right hp
    exact hi.to_idle (hps'.trans hps) hbuf hcnt hpn (fun h => ((commandEffect_pok i now b).mp h).1)
      (fun h => ((commandEffect_pto i now b).mp h).1)

/-- A successful attempt: the buffer holds the `PN` bytes and nothing beyond them. -/
theorem BlockInv.succeed {b : Block} (hi : BlockInv b) (hbusy : b.ps ≠ .idle) (d : BitVec 64) :
    BlockInv (attemptSucceeds d b) := by
  obtain ⟨-, hpto, hcnt, -, -, hn1, hn8, -, -⟩ := hi.busyClear hbusy
  have hzero : ∀ i, b.pn.toNat ≤ i → Memory.read (attemptSucceeds d b).buf i = 0x00#8 := fun i hl => by
    rw [attemptSucceeds, read_writeBytes_outside (.inr (by simpa using hl))]
    exact hi.zeroBeyondCount i (by simp [hcnt])
  exact ⟨by simp [attemptSucceeds, hpto], .inr rfl, hn8, hzero, pollStateBits_cases _, absurd rfl,
    fun _ => ⟨rfl, hn1⟩⟩

/-- A time-out ends the poll with no byte received. -/
theorem BlockInv.timeout {b : Block} (hi : BlockInv b) (hbusy : b.ps ≠ .idle) :
    BlockInv { b with pto := true, ps := .idle } := by
  obtain ⟨hpok, -⟩ := hi.busyClear hbusy
  exact ⟨by simp [hpok], hi.countIsTarget, hi.countBound, hi.zeroBeyondCount, pollStateBits_cases _, absurd rfl,
    hi.successCount⟩

/-- An enabled `wake` finds a poll asleep. -/
theorem busy_of_wakeEnabled {now : Word} {b : Block} (hw : wakeEnabled now b = true) : b.ps ≠ .idle := by
  rw [((wakeEnabled_iff now b).mp hw).1]
  decide

theorem busy_of_respond {s : State} {cnt : BitVec 4} {d : BitVec 64}
    (he : nextEvent s = some (.respond cnt d)) : s.block.ps ≠ .idle := by
  rw [req_of_respond he]
  decide

/-- Every step keeps R41 (a) to (f). -/
theorem step_keeps_blockInv {s t : State} (h : step s = .next t) (hi : BlockInv s.block) : BlockInv t.block := by
  cases step_cases h with
  | quiet he hn hb => rw [hb]; exact hi
  | command w i he hd hn hb => rw [hb]; exact hi.command s.now (idle_of_accept he) (wellFormed_of_decode hd)
  | illegal w he hl hn hb => rw [hb]; exact hi.to_idle (idle_of_accept he) rfl rfl rfl id id
  | exactAnswer d he hn hb => rw [hb]; exact hi.succeed (busy_of_respond he) d
  | otherAnswer cnt d he hc hn hb => rw [hb]; exact hi.busy_move (busy_of_respond he) .sleep s.now
  | idleWake he hw hn hb => rw [hb]; exact hi
  | timeout he hw hp hn hb => rw [hb]; exact hi.timeout (busy_of_wakeEnabled hw)
  | retry he hw hp hn hb => rw [hb]; exact hi.busy_move (busy_of_wakeEnabled hw) .req s.block.ts
  | reset he hn hb => rw [hb]; exact blockInv_reset

/-- Every step leaves the buffer as it was, cleared, or filled by an exact answer: the canonical form stays. -/
theorem step_keeps_buffer {s t : State} (h : step s = .next t) (hi : StateInv s) : Memory.wf t.block.buf := by
  cases step_cases h with
  | command w i he hd hn hb =>
    rw [hb]
    by_cases hp : ∃ n c x, i = .poll n c x
    · obtain ⟨n, c, x, rfl⟩ := hp
      exact Memory.wf_nil
    · rw [((commandEffect_buf i s.now s.block).resolve_right hp).1]
      exact hi.buffer
  | exactAnswer d he hn hb =>
    obtain ⟨-, -, -, -, -, -, hn8, -, -⟩ := hi.block.busyClear (busy_of_respond he)
    rw [hb]
    exact writeBytes_wf hi.buffer (by simpa using hn8)
  | reset he hn hb => rw [hb]; exact Memory.wf_nil
  | illegal w he hl hn hb => rw [hb]; exact hi.buffer
  | otherAnswer cnt d he hc hn hb => rw [hb]; exact hi.buffer
  | timeout he hw hp hn hb => rw [hb]; exact hi.buffer
  | retry he hw hp hn hb => rw [hb]; exact hi.buffer
  | quiet he hn hb => rw [hb]; exact hi.buffer
  | idleWake he hw hn hb => rw [hb]; exact hi.buffer

/-- While `rst` is asserted the block is at its reset values (70_reset_and_hazards.md R260): the instant that asserts it
resets the block, and until it is released no event happens. -/
theorem step_keeps_heldReset {s t : State} (h : step s = .next t) (hi : s.rst = true → s.block = Block.reset)
    (ht : t.rst = true) : t.block = Block.reset := by
  have hr := step_rst h
  by_cases hp : ∃ p rest, s.inputs = .pins p :: rest
  · obtain ⟨p, rest, hin⟩ := hp
    simp only [hin] at hr
    exact (step_of_event h (reset_of_pins hin (hr ▸ ht))).1
  · have hs : s.rst = true := by
      split at hr
      · exact absurd ⟨_, _, ‹_›⟩ hp
      · exact hr ▸ ht
    have he := no_event_of_asserted hs (fun p rest hin => hp ⟨p, rest, hin⟩)
    exact (step_of_no_event h he).1.trans (hi hs)

theorem step_keeps_stateInv {s t : State} (h : step s = .next t) (hi : StateInv s) : StateInv t :=
  ⟨step_keeps_blockInv h hi.block, step_keeps_buffer h hi, step_keeps_heldReset h hi.heldReset⟩

/-! ### Every step completes -/

theorem hostAction_completes (a : HostAction) (rest : List HostAction) (s : State) :
    ∃ t, hostAction a rest s = .next t := by
  cases a with
  | blk i => exact ⟨_, acceptWord_eq _ _⟩
  | _ => exact ⟨_, rfl⟩

theorem hostStep_completes (s : State) : ∃ t, hostStep s = .next t := by
  unfold hostStep
  split
  · exact ⟨_, rfl⟩
  · split
    · exact hostAction_completes _ _ _
    · exact ⟨_, rfl⟩

theorem unlessReset_completes {f : State → Outcome} (hf : ∀ s, ∃ t, f s = .next t) (s : State) :
    ∃ t, unlessReset f s = .next t := by
  cases hr : s.rst with
  | true => exact ⟨s, unlessReset_of_asserted f hr⟩
  | false => rw [unlessReset_of_released f hr]; exact hf s

/-- No failure stops the block (60_exceptions.md R230). -/
theorem step_completes (s : State) : ∃ t, step s = .next t := by
  unfold step
  split
  · exact ⟨_, rfl⟩
  · next i rest _ =>
    cases i with
    | pins p => exact ⟨_, applyEvent_eq _ _⟩
    | wake => exact unlessReset_completes (fun s => ⟨_, applyEvent_eq .wake s⟩) _
    | tick => exact unlessReset_completes (fun s => ⟨_, applyEvent_eq .tick s⟩) _
    | call c => exact ⟨_, rfl⟩
    | host => exact unlessReset_completes hostStep_completes _
    | writeStatus n => exact ⟨_, rfl⟩

/-- The block after a step that accepts a command. -/
theorem step_of_command {s t : State} {i : Instr} (h : step s = .next t) (hc : nextCommand s = some i) :
    t.block = commandEffect i s.now s.block := by
  obtain ⟨w, he, hd⟩ := nextCommand_eq_some.mp hc
  simpa [eventEffect, acceptEffect, hd] using (step_of_event h he).1

/-- R41 (g): what an `SMP.LD` writes into `RAWV`. -/
theorem rawv_of_smpLd {s t : State} {off : BitVec 4} (h : step s = .next t)
    (hc : nextCommand s = some (.smpLd off)) : t.block.rawv = loadedValid s.block off := by
  rw [step_of_command h hc]
  rfl

/-- Settles O45: the invariants through each case of a step, and that no step stops. -/
theorem everyStepCompletesAndKeepsTheInvariants : Obligations.EveryStepCompletesAndKeepsTheInvariants := by
  unfold Obligations.EveryStepCompletesAndKeepsTheInvariants
  intro s
  obtain ⟨t, h⟩ := step_completes s
  refine ⟨t, h, step_keeps_stateInv h, fun off hc hv => ?_⟩
  rw [rawv_of_smpLd h hc] at hv
  exact ((loadedValid_iff s.block off).mp hv).2

/-- Settles O46: at reset no poll runs and `rst` has been released. -/
theorem invariantsHoldAtReset : Obligations.InvariantsHoldAtReset :=
  ⟨⟨blockInv_reset, Memory.wf_nil, fun _ => rfl⟩, fun h => absurd h (by decide)⟩

/-- Settles O47: only a `POLL` and a retry enter `REQ`, and both make the request as they do; no other step that stays in
`REQ` writes the history. -/
theorem everyStepKeepsTheOutstandingRequest : Obligations.EveryStepKeepsTheOutstandingRequest := by
  unfold Obligations.EveryStepKeepsTheOutstandingRequest
  intro s t hi h hreq
  cases step_cases h with
  | quiet he hn hb hh => rw [hb] at hreq ⊢; rw [hh]; exact hi hreq
  | idleWake he hw hn hb hh => rw [hb] at hreq ⊢; rw [hh]; exact hi hreq
  | command w i he hd hn hb hh =>
    rw [hb] at hreq ⊢
    by_cases hp : ∃ n c x, i = .poll n c x
    · obtain ⟨n, c, x, rfl⟩ := hp
      simp [hh, commandEffect, commandEmits]
    · rw [(commandEffect_ps i s.now s.block).resolve_right hp, idle_of_accept he] at hreq
      cases hreq
  | illegal w he hl hn hb =>
    rw [hb] at hreq
    exact absurd (hreq.symm.trans (idle_of_accept he)) (by decide)
  | retry he hw hp hn hb hh => simp [hb, hh]
  | exactAnswer d he hn hb => rw [hb] at hreq; cases hreq
  | otherAnswer cnt d he hc hn hb => rw [hb] at hreq; cases hreq
  | timeout he hw hp hn hb => rw [hb] at hreq; cases hreq
  | reset he hn hb => rw [hb] at hreq; cases hreq

end Sys2Proof.Machine
end

section
/-! The flags by their events, and the elements by their writers (10_state.md R20, R23, R31 to R33). -/

namespace Sys2Proof.Machine

/-- Settles O40: only an illegal word writes 1 into `CMDERR` and only a reset writes 0. -/
theorem cmderrIsStickyUntilReset : Obligations.CmderrIsStickyUntilReset := by
  unfold Obligations.CmderrIsStickyUntilReset
  intro s t h
  constructor
  · cases step_cases h with
    | quiet he hn hb =>
      obtain ⟨hr, -, -, hacc⟩ := quiet_no_event he
      simp [hb, hr, hacc]
    | command w i he hd hn hb =>
      have hw := legalWord_of_decode hd
      simp [hb, commandEffect_cmderr, resetsNext, he, hw]
    | illegal w he hl hn hb => simp [hb, resetsNext, he, hl]
    | exactAnswer d he hn hb => simp [hb, attemptSucceeds, resetsNext, he]
    | otherAnswer cnt d he hc hn hb => simp [hb, attemptFails, resetsNext, he]
    | idleWake he hw hn hb => simp [hb, resetsNext, he]
    | timeout he hw hp hn hb => simp [hb, resetsNext, he]
    | retry he hw hp hn hb => simp [hb, resetsNext, he]
    | reset he hn hb => simp [hb, resetsNext, he, Block.reset]
  · intro w he hl
    obtain ⟨e, hd⟩ := decode_of_illegal hl
    simpa [eventEffect, eventTime, eventEmits, acceptEffect, acceptEmits, hd] using step_of_event h he

/-- What sets and what clears `POK`, over every case of a step. -/
theorem step_pok {s t : State} (h : step s = .next t) : t.block.pok = true ↔
    (∃ d, nextEvent s = some (.respond s.block.pn d) ∧ s.block.ps = .req) ∨
    (s.block.pok = true ∧ ¬resetsNext s ∧ nextCommand s ≠ some .clrf ∧
      ∀ n b x, nextCommand s ≠ some (.poll n b x)) := by
  cases step_cases h with
  | quiet he hn hb =>
    obtain ⟨hr, -, hresp, -⟩ := quiet_no_event he
    simp [hb, hn, hr, hresp]
  | command w i he hd hn hb => simp [hb, commandEffect_pok, hn, he, resetsNext]
  | illegal w he hl hn hb => simp [hb, hn, he, resetsNext]
  | exactAnswer d he hn hb => simp [hb, attemptSucceeds, he, req_of_respond he]
  | otherAnswer cnt d he hc hn hb => simp [hb, attemptFails, hn, he, hc, resetsNext]
  | idleWake he hw hn hb => simp [hb, hn, he, resetsNext]
  | timeout he hw hp hn hb => simp [hb, hn, he, resetsNext]
  | retry he hw hp hn hb => simp [hb, hn, he, resetsNext]
  | reset he hn hb => simp [hb, he, Block.reset, resetsNext]

/-- What sets and what clears `PTO`, over every case of a step. -/
theorem step_pto {s t : State} (h : step s = .next t) : t.block.pto = true ↔
    (nextEvent s = some .wake ∧ wakeEnabled s.now s.block = true ∧ deadlinePassed s.now s.block = true) ∨
    (s.block.pto = true ∧ ¬resetsNext s ∧ nextCommand s ≠ some .clrf ∧
      ∀ n b x, nextCommand s ≠ some (.poll n b x)) := by
  cases step_cases h with
  | quiet he hn hb =>
    obtain ⟨hr, hwake, -, -⟩ := quiet_no_event he
    simp [hb, hn, hr, hwake]
  | command w i he hd hn hb => simp [hb, commandEffect_pto, hn, he, resetsNext]
  | illegal w he hl hn hb => simp [hb, hn, he, resetsNext]
  | exactAnswer d he hn hb => simp [hb, attemptSucceeds, hn, he, resetsNext]
  | otherAnswer cnt d he hc hn hb => simp [hb, attemptFails, hn, he, resetsNext]
  | idleWake he hw hn hb => simp [hb, hn, he, hw, resetsNext]
  | timeout he hw hp hn hb => simp [hb, he, hw, hp]
  | retry he hw hp hn hb => simp [hb, hn, he, hp, resetsNext]
  | reset he hn hb => simp [hb, he, Block.reset, resetsNext]

/-- Settles O41: the events of each flag, and R41 (a) after the step. -/
theorem pollEndFlagsFollowTheirEvents : Obligations.PollEndFlagsFollowTheirEvents := by
  unfold Obligations.PollEndFlagsFollowTheirEvents
  intro s t h
  refine ⟨step_pok h, ?_, fun hi => (step_keeps_blockInv h hi.block).endsExclude⟩
  rw [step_pto h, wakeEnabled_iff, deadlinePassed_iff, and_assoc]

/-- `RAWV` and `CRCERR` are written by commands and by a reset alone. -/
theorem step_sample_flags {s t : State} (h : step s = .next t) :
    (∃ i, nextCommand s = some i ∧ ¬resetsNext s ∧ t.block = commandEffect i s.now s.block) ∨
    (nextCommand s = none ∧ resetsNext s ∧ t.block = Block.reset) ∨
    (nextCommand s = none ∧ ¬resetsNext s ∧ t.block.rawv = s.block.rawv ∧ t.block.crcerr = s.block.crcerr) := by
  cases step_cases h with
  | quiet he hn hb => simp [hb, hn, (quiet_no_event he).1]
  | command w i he hd hn hb => exact .inl ⟨i, hn, by simp [resetsNext, he], hb⟩
  | illegal w he hl hn hb => simp [hb, hn, he, resetsNext]
  | exactAnswer d he hn hb => simp [hb, attemptSucceeds, hn, he, resetsNext]
  | otherAnswer cnt d he hc hn hb => simp [hb, attemptFails, hn, he, resetsNext]
  | idleWake he hw hn hb => simp [hb, hn, he, resetsNext]
  | timeout he hw hp hn hb => simp [hb, hn, he, resetsNext]
  | retry he hw hp hn hb => simp [hb, hn, he, resetsNext]
  | reset he hn hb => exact .inr (.inl ⟨hn, he, hb⟩)

/-- What sets and what clears `CRCERR`. -/
theorem step_crcerr {s t : State} (h : step s = .next t) : t.block.crcerr = true ↔
    (∃ off len, nextCommand s = some (.crcVfy off len) ∧ ¬groupVerifies s.block off len = true) ∨
    (s.block.crcerr = true ∧ ¬resetsNext s ∧ nextCommand s ≠ some .clrf ∧
      ∀ n b x, nextCommand s ≠ some (.poll n b x)) := by
  obtain ⟨i, hn, hr, hb⟩ | ⟨hn, hr, hb⟩ | ⟨hn, hr, -, hc⟩ := step_sample_flags h
  · simp [hb, commandEffect_crcerr, hn, hr]
  · simp [hb, Block.reset, hn, hr]
  · simp [hc, hn, hr]

/-- Settles O42: the events of the flag, and `SMP.LD` under it. -/
theorem crcerrFollowsItsEvents : Obligations.CrcerrFollowsItsEvents := by
  unfold Obligations.CrcerrFollowsItsEvents
  intro s t h
  simp only [← groupVerifies_iff]
  refine ⟨step_crcerr h, fun herr off hc => ?_⟩
  rw [rawv_of_smpLd h hc, Bool.eq_false_iff, ne_eq, loadedValid_iff, herr]
  simp

/-- What sets and what clears `RAWV`. -/
theorem step_rawv {s t : State} (h : step s = .next t) : t.block.rawv = true ↔
    (∃ x, nextCommand s = some (.smpSet x)) ∨
    (∃ off, nextCommand s = some (.smpLd off) ∧ loadedValid s.block off = true) ∨
    (s.block.rawv = true ∧ ¬resetsNext s ∧ nextCommand s ≠ some .smpInv ∧
      (∀ off, nextCommand s ≠ some (.smpLd off)) ∧ (∀ n b x, nextCommand s ≠ some (.poll n b x)) ∧
      ∀ off len, nextCommand s = some (.crcVfy off len) → groupVerifies s.block off len = true) := by
  obtain ⟨i, hn, hr, hb⟩ | ⟨hn, hr, hb⟩ | ⟨hn, hr, hv, -⟩ := step_sample_flags h
  · simp [hb, commandEffect_rawv, hn, hr]
  · simp [hb, Block.reset, hn, hr]
  · simp [hv, hn, hr]

/-- Settles O43: the events of `RAWV`. -/
theorem rawvFollowsItsEvents : Obligations.RawvFollowsItsEvents := by
  unfold Obligations.RawvFollowsItsEvents
  intro s t h
  simp only [← groupVerifies_iff, ← loadedValid_iff]
  exact step_rawv h

/-- Settles O44: a command writes what `commandEffect` says, the other events what their cases say. -/
theorem everyElementHasOnlyItsWriters : Obligations.EveryElementHasOnlyItsWriters := by
  unfold Obligations.EveryElementHasOnlyItsWriters
  intro s t h hr
  cases step_cases h with
  | quiet he hn hb => simp [hb]
  | command w i he hd hn hb =>
    simp only [hn, hb, Option.some.injEq]
    exact ⟨commandEffect_crc .., commandEffect_raw .., commandEffect_result .., commandEffect_addr ..,
      commandEffect_latches .., .inl (commandEffect_ts ..), (commandEffect_buf ..).imp_right .inl,
      (commandEffect_ps ..).imp_right .inl, commandEffect_rawv_writers ..,
      (commandEffect_pok_writers ..).imp_right (.imp_right .inr),
      (commandEffect_pto_writers ..).imp_right (.imp_right .inr), commandEffect_crcerr_writers ..,
      .inl (commandEffect_cmderr ..)⟩
  | illegal w he hl hn hb => simp [hb, he, hl]
  | exactAnswer d he hn hb => simp [hb, attemptSucceeds, he]
  | otherAnswer cnt d he hc hn hb => simp [hb, attemptFails, he, hc]
  | idleWake he hw hn hb => simp [hb]
  | timeout he hw hp hn hb =>
    simp only [← deadlinePassed_iff]
    simp [hb, he, hp]
  | retry he hw hp hn hb => simp [hb, he]
  | reset he hn hb => exact absurd he hr

end Sys2Proof.Machine
end

section
/-! The registers of the read port, field by field (10_state.md R35 to R37, R40). -/

namespace Sys2Proof.Machine

/-- A field of a word: its bit `j` is the word's bit `s + j`. -/
theorem extractLsb'_eq_of_getLsbD {w n : Nat} {x : BitVec w} {v : BitVec n} {s : Nat}
    (h : ∀ j, j < n → x.getLsbD (s + j) = v.getLsbD j) : x.extractLsb' s n = v := by
  apply BitVec.eq_of_getLsbD_eq
  intro j hj
  rw [BitVec.getLsbD_extractLsb', h j hj, decide_eq_true hj, Bool.true_and]

/-- `STATUS` bit by bit: the six flags, two zeros, `BUFCNT`, `PS` and zeros (10_state.md R35). -/
theorem statusWord_bit (b : Block) {i : Nat} (hi : i < 32) :
    (statusWord b).getLsbD i =
      if i < 6 then [busy b, b.pok, b.pto, b.rawv, b.crcerr, b.cmderr].getD i false
      else if i < 8 then false
      else if i < 12 then b.bufcnt.getLsbD (i - 8)
      else if i < 14 then (pollStateBits b.ps).getLsbD (i - 12) else false := by
  rw [statusWord_getLsbD]
  simp only [BitVec.getLsbD_append]
  interval_cases i <;> simp

/-- `POLLCFG` bit by bit: `PT`, `PB`, a zero, `PN` and zeros (10_state.md R36). -/
theorem pollcfgWord_bit (b : Block) {i : Nat} (hi : i < 32) :
    (pollcfgWord b).getLsbD i =
      if i < 16 then b.pt.getLsbD i
      else if i < 19 then b.pb.getLsbD (i - 16)
      else if i < 20 then false
      else if i < 24 then b.pn.getLsbD (i - 20) else false := by
  rw [pollcfgWord_getLsbD]
  simp only [BitVec.getLsbD_append]
  interval_cases i <;> simp

theorem readPort_status (b : Block) : readPort b 0#4 = statusWord b := rfl

theorem readPort_pollcfg (b : Block) : readPort b 7#4 = pollcfgWord b := rfl

/-- The six flags of `STATUS`, lowest bit first. -/
theorem status_flag (b : Block) {i : Nat} (hi : i < 6) :
    (statusWord b).getLsbD i = [busy b, b.pok, b.pto, b.rawv, b.crcerr, b.cmderr].getD i false := by
  rw [statusWord_bit b (by omega), if_pos hi]

theorem status_reserved_low (b : Block) : (statusWord b).extractLsb' 6 2 = 0#2 :=
  extractLsb'_eq_of_getLsbD fun j hj => by
    rw [statusWord_bit b (by omega), if_neg (by omega), if_pos (by omega), BitVec.getLsbD_zero]

theorem status_bufcnt (b : Block) : (statusWord b).extractLsb' 8 4 = b.bufcnt :=
  extractLsb'_eq_of_getLsbD fun j hj => by
    rw [statusWord_bit b (by omega), if_neg (by omega), if_neg (by omega), if_pos (by omega), Nat.add_sub_cancel_left]

theorem status_ps (b : Block) : (statusWord b).extractLsb' 12 2 = pollStateBits b.ps :=
  extractLsb'_eq_of_getLsbD fun j hj => by
    rw [statusWord_bit b (by omega), if_neg (by omega), if_neg (by omega), if_neg (by omega), if_pos (by omega),
      Nat.add_sub_cancel_left]

theorem status_reserved_high (b : Block) : (statusWord b).extractLsb' 14 18 = 0#18 :=
  extractLsb'_eq_of_getLsbD fun j hj => by
    rw [statusWord_bit b (by omega), if_neg (by omega), if_neg (by omega), if_neg (by omega), if_neg (by omega),
      BitVec.getLsbD_zero]

theorem busy_eq (b : Block) : busy b = decide (b.ps ≠ .idle) := by
  simp [busy, cmdReady]

/-- Settles O36: the sixteen registers of the fixed state. -/
theorem resetValuesOnTheReadPort : Obligations.ResetValuesOnTheReadPort := by
  unfold Obligations.ResetValuesOnTheReadPort
  decide

/-- Settles O37: the flags bit by bit, then the fields. -/
theorem statusPacksTheFlags : Obligations.StatusPacksTheFlags := by
  unfold Obligations.StatusPacksTheFlags
  intro b
  refine ⟨(status_flag b (by decide)).trans (busy_eq b), status_flag b (by decide), status_flag b (by decide),
    status_flag b (by decide), status_flag b (by decide), status_flag b (by decide), status_reserved_low b,
    status_bufcnt b, ?_, status_reserved_high b⟩
  rw [readPort_status, status_ps]
  refine ⟨?_, ?_, ?_⟩ <;> (intro h; rw [h]; rfl)

theorem pollcfg_pt (b : Block) : (pollcfgWord b).extractLsb' 0 16 = b.pt :=
  extractLsb'_eq_of_getLsbD fun j hj => by
    rw [pollcfgWord_bit b (by omega), if_pos (by omega), Nat.zero_add]

theorem pollcfg_pb (b : Block) : (pollcfgWord b).extractLsb' 16 3 = b.pb :=
  extractLsb'_eq_of_getLsbD fun j hj => by
    rw [pollcfgWord_bit b (by omega), if_neg (by omega), if_pos (by omega), Nat.add_sub_cancel_left]

theorem pollcfg_reserved_low (b : Block) : (pollcfgWord b).extractLsb' 19 1 = 0#1 :=
  extractLsb'_eq_of_getLsbD fun j hj => by
    rw [pollcfgWord_bit b (by omega), if_neg (by omega), if_neg (by omega), if_pos (by omega), BitVec.getLsbD_zero]

theorem pollcfg_pn (b : Block) : (pollcfgWord b).extractLsb' 20 4 = b.pn :=
  extractLsb'_eq_of_getLsbD fun j hj => by
    rw [pollcfgWord_bit b (by omega), if_neg (by omega), if_neg (by omega), if_neg (by omega), if_pos (by omega),
      Nat.add_sub_cancel_left]

theorem pollcfg_reserved_high (b : Block) : (pollcfgWord b).extractLsb' 24 8 = 0#8 :=
  extractLsb'_eq_of_getLsbD fun j hj => by
    rw [pollcfgWord_bit b (by omega), if_neg (by omega), if_neg (by omega), if_neg (by omega), if_neg (by omega),
      BitVec.getLsbD_zero]

/-- The reserved registers read 0 (10_state.md R37). -/
theorem readPort_reserved (b : Block) {k : BitVec 4} (hk : 10 ≤ k.toNat) : readPort b k = 0#32 := by
  unfold readPort
  split
  case h_11 => rfl
  all_goals omega

/-- Byte `i` of `BUFA` and of `BUFB` (20_memory.md R68). -/
theorem readPort_buf_bytes (b : Block) {i : Nat} (hi : i < 4) :
    (readPort b 4#4).extractLsb' (24 - 8 * i) 8 = Memory.read b.buf i ∧
      (readPort b 5#4).extractLsb' (24 - 8 * i) 8 = Memory.read b.buf (4 + i) :=
  ⟨(readWord_byte b.buf 0 hi).trans (by rw [Nat.zero_add]), readWord_byte b.buf 4 hi⟩

/-- Settles O38: the fields of `POLLCFG`, the buffer bytes, and the registers that hold one element. -/
theorem readPortPacksTheOtherRegisters : Obligations.ReadPortPacksTheOtherRegisters := by
  unfold Obligations.ReadPortPacksTheOtherRegisters
  intro b
  have hcrc : (readPort b 1#4).toNat = b.crc.toNat := BitVec.toNat_setWidth_of_le (by decide)
  have hraw : (readPort b 2#4).toNat = b.raw.toNat := BitVec.toNat_setWidth_of_le (by decide)
  have haddr : (readPort b 6#4).toNat = b.addr.toNat := BitVec.toNat_setWidth_of_le (by decide)
  rw [readPort_pollcfg]
  exact ⟨⟨pollcfg_pt b, pollcfg_pb b, pollcfg_reserved_low b, pollcfg_pn b, pollcfg_reserved_high b⟩,
    fun i hi => readPort_buf_bytes b hi, ⟨hcrc, hraw, rfl, haddr, rfl, rfl⟩, fun k hk => readPort_reserved b hk⟩

end Sys2Proof.Machine
end

section
/-! The interfaces of 20_memory.md: the clock (R66), the transport port (R65, R72, R76), and the instants of the pins that
perform no more than a read (R62, R65). -/

namespace Sys2Proof.Machine

/-! ### The clock -/

/-- The time after a tick, on natural numbers (20_memory.md R66). -/
theorem eventTime_tick (now : Word) : eventTime .tick now = BitVec.ofNat 32 ((now.toNat + 1) % 2 ^ 32) := by
  apply BitVec.eq_of_toNat_eq
  simp [eventTime]

theorem eventTime_of_ne_tick {e : Event} (he : e ≠ .tick) (now : Word) : eventTime e now = now := by
  cases e with
  | tick => exact absurd rfl he
  | _ => rfl

/-- A tick with `rst` released: the input is taken, the time advances, nothing else changes. -/
theorem step_tick (s : State) (rest : List Input) (hr : s.rst = false) :
    step { s with inputs := .tick :: rest } = .next { s with inputs := rest, now := eventTime .tick s.now } := by
  calc step { s with inputs := .tick :: rest }
    _ = unlessReset (applyEvent .tick) { s with inputs := rest } := rfl
    _ = applyEvent .tick { s with inputs := rest } := unlessReset_of_released (applyEvent .tick) hr
    _ = .next { s with inputs := rest, now := eventTime .tick s.now } := rfl

theorem step_keeps_now {s t : State} (h : step s = .next t) (hn : nextEvent s ≠ some .tick) : t.now = s.now := by
  cases he : nextEvent s with
  | none => exact (step_of_no_event h he).2.1
  | some e =>
    obtain ⟨-, hnow, -⟩ := step_of_event h he
    rw [hnow]
    exact eventTime_of_ne_tick (fun htick => hn (by rw [he, htick])) s.now

/-- Settles O39: the whole state after a tick, and the time after every other step by its event. -/
theorem onlyTicksMoveTheClock : Obligations.OnlyTicksMoveTheClock := by
  unfold Obligations.OnlyTicksMoveTheClock
  refine ⟨fun s rest hr => ?_, fun s t => step_keeps_now⟩
  rw [step_tick s rest hr, eventTime_tick]

/-! ### The transport port -/

/-- A `POLL` makes its request for its own count and enters `REQ`; no other command uses the transport port. -/
theorem commandEmits_cases (i : Instr) (now : Word) (b : Block) :
    commandEmits i b = [] ∨
    commandEmits i b = [.request (commandEffect i now b).addr (commandEffect i now b).pn] ∧
      (commandEffect i now b).ps = .req := by
  cases i with
  | poll n c x => exact .inr ⟨rfl, rfl⟩
  | _ => exact .inl rfl

/-- Settles O48: a request comes with a `POLL` from `IDLE` or a retry from `SLEEP`, a response with an answer in `REQ`,
and no other step uses the port. -/
theorem requestsAreMadeOneAtATime : Obligations.RequestsAreMadeOneAtATime := by
  unfold Obligations.RequestsAreMadeOneAtATime
  intro s t h
  cases step_cases h with
  | quiet he hn hb hh => exact .inl hh
  | command w i he hd hn hb hh =>
    obtain hquiet | ⟨hreq, hps⟩ := commandEmits_cases i s.now s.block
    · exact .inl (by rw [hh, hquiet, List.append_nil])
    · have hidle : s.block.ps ≠ .req := by simp [idle_of_accept he]
      exact .inr (.inr ⟨by rw [hh, hreq, hb], hidle, by rw [hb, hps]⟩)
  | illegal w he hl hn hb hh => exact .inl hh
  | exactAnswer d he hn hb hh =>
    exact .inr (.inl ⟨s.block.pn, d, hh, req_of_respond he, by simp [hb, attemptSucceeds]⟩)
  | otherAnswer cnt d he hc hn hb hh =>
    exact .inr (.inl ⟨cnt, d, hh, req_of_respond he, by simp [hb, attemptFails]⟩)
  | idleWake he hw hn hb hh => exact .inl hh
  | timeout he hw hp hn hb hh => exact .inl hh
  | retry he hw hp hn hb hh =>
    have hsleep : s.block.ps ≠ .req := by simp [((wakeEnabled_iff s.now s.block).mp hw).1]
    exact .inr (.inr ⟨by rw [hh, hb], hsleep, by rw [hb]⟩)
  | reset he hn hb hh => exact .inl hh

/-! ### Reads -/

/-- With `rst` low, no command word presented and no response that is taken, an instant of the pins is a read. -/
theorem pinsEvent_read {p : Pins} {b : Block} (hrst : p.rst = false) (hcmd : p.cmdValid = false)
    (hrsp : p.rspValid = false ∨ b.ps ≠ .req) : pinsEvent p b = .read p.rdSel := by
  have htaken : ¬(p.rspValid = true ∧ b.ps = .req) := by
    rintro ⟨hv, hps⟩
    exact hrsp.elim (by simp [hv]) (fun hne => hne hps)
  simp [pinsEvent, hrst, hcmd, htaken]

/-- Settles O34: the instant is a read, and a read changes nothing. -/
theorem readsAndStrayAnswersChangeNothing : Obligations.ReadsAndStrayAnswersChangeNothing := by
  unfold Obligations.ReadsAndStrayAnswersChangeNothing
  intro s p rest hrst hcmd hrsp
  calc step { s with inputs := .pins p :: rest }
    _ = applyEvent (pinsEvent p s.block) { s with inputs := rest, rst := p.rst } := rfl
    _ = applyEvent (.read p.rdSel) { s with inputs := rest, rst := false } := by
      rw [pinsEvent_read hrst hcmd hrsp, hrst]
    _ = .next { s with inputs := rest, rst := false } := rfl

end Sys2Proof.Machine
end

section
/-! The encoding of 30_encoding.md R90 to R99: the decoder and the encoder invert each other between the legal words
and the well-formed instructions; and the step that accepts a word (R100, R104). -/

namespace Sys2Proof

/-! ### From an instruction to its word and back -/

/-- Every instruction's encoding matches its row, and the row's operand fields are the instruction's operands. -/
theorem encode_operandFields (i : Instr) : Laws.OperandFields.Statement i := by
  cases i with
  | nop => exact Laws.OperandFields.nop
  | clrf => exact Laws.OperandFields.clrf
  | cfgAddr imm7 => exact Laws.OperandFields.cfgAddr imm7
  | crcClr => exact Laws.OperandFields.crcClr
  | crcByte imm8 => exact Laws.OperandFields.crcByte imm8
  | crcBuf off len => exact Laws.OperandFields.crcBuf off len
  | crcVfy off len => exact Laws.OperandFields.crcVfy off len
  | smpSet imm16 => exact Laws.OperandFields.smpSet imm16
  | smpLd off => exact Laws.OperandFields.smpLd off
  | smpInv => exact Laws.OperandFields.smpInv
  | decRh => exact Laws.OperandFields.decRh
  | decT => exact Laws.OperandFields.decT
  | poll n b t => exact Laws.OperandFields.poll n b t

/-- Settles O50: the encoding's own row is the one the decoder finds, and it gives the operands back. -/
theorem decodeOfEncodeIsTheInstruction : Obligations.DecodeOfEncodeIsTheInstruction := by
  unfold Obligations.DecodeOfEncodeIsTheInstruction
  intro i hw
  obtain ⟨r, hr, hs, hb⟩ := encode_operandFields i
  rw [decode_of_row hr hs, hb, if_pos hw]

/-! ### From a word to its instruction and back -/

/-- The ones at the `n` bits from bit `s` up, the place of an operand field. -/
def fieldMask (s n : Nat) : Word := (BitVec.allOnes n).setWidth 32 <<< s

/-- A field read from a word and put back in its place is the word's own bits there. -/
theorem field_in_place (w : Word) (s n : Nat) :
    (w.extractLsb' s n).setWidth 32 <<< s = w &&& fieldMask s n := by
  apply BitVec.eq_of_getLsbD_eq
  intro i hi
  by_cases hs : i < s
  · simp [fieldMask, hs]
  · have hplace : s + (i - s) = i := by omega
    simp [fieldMask, hi, hs, hplace, Bool.and_comm]

/-- The same for a field that begins at bit 0, which the encoder does not shift. -/
theorem low_field_in_place (w : Word) (n : Nat) : (w.extractLsb' 0 n).setWidth 32 = w &&& fieldMask 0 n := by
  rw [← field_in_place, BitVec.shiftLeft_zero]

/-- The bits of a command's word that its operand fields occupy (R91 to R97). -/
def operandMask (c : Opcode) : Word :=
  match c with
  | .cfgAddr => fieldMask 0 7
  | .crcByte => fieldMask 0 8
  | .crcBuf | .crcVfy => fieldMask 4 4 ||| fieldMask 0 4
  | .smpSet => fieldMask 0 16
  | .smpLd => fieldMask 4 4
  | .poll => fieldMask 20 4 ||| fieldMask 16 3 ||| fieldMask 0 16
  | .nop | .clrf | .crcClr | .smpInv | .decRh | .decT => 0#32

/-- The operand fields are exactly the bits that the row's mask leaves free: no bit of a word is ignored (R98). -/
theorem operandMask_eq_not_mask : ∀ r ∈ opcodeMap, operandMask r.code = ~~~r.mask := by decide

/-- With every operand 0 a command's word is its row's fixed bits. -/
theorem encode_zero_operands : ∀ r ∈ opcodeMap, encode (buildInstr r.code 0#32) = r.pattern := by decide

/-- Encoding the operands read from any word keeps the word's bits in the operand fields and fixes the others. -/
theorem encode_buildInstr (c : Opcode) (w : Word) :
    encode (buildInstr c w) = encode (buildInstr c 0#32) ||| (w &&& operandMask c) := by
  cases c with
  | nop | clrf | crcClr | smpInv | decRh | decT => simp [buildInstr, encode, operandMask]
  | cfgAddr | crcByte | smpSet =>
    simp only [buildInstr, encode, operandMask, low_field_in_place, BitVec.zero_and, BitVec.or_zero]
  | smpLd => simp only [buildInstr, encode, operandMask, field_in_place, BitVec.zero_and, BitVec.or_zero]
  | crcBuf | crcVfy | poll =>
    simp only [buildInstr, encode, operandMask, field_in_place, low_field_in_place, BitVec.zero_and, BitVec.or_zero,
      BitVec.and_or_distrib_left, BitVec.or_assoc]

/-- A word that a row matches is the encoding of the operands the row reads from it. -/
theorem encode_buildInstr_of_selects {r : OpcodeRow} {w : Word} (hr : r ∈ opcodeMap) (h : rowSelects r w = true) :
    encode (buildInstr r.code w) = w := by
  have hfixed : w &&& r.mask = r.pattern := by simpa [rowSelects] using h
  calc encode (buildInstr r.code w)
    _ = encode (buildInstr r.code 0#32) ||| (w &&& operandMask r.code) := encode_buildInstr r.code w
    _ = (w &&& r.mask) ||| (w &&& ~~~r.mask) := by
      rw [encode_zero_operands r hr, operandMask_eq_not_mask r hr, hfixed]
    _ = w := by rw [← BitVec.and_or_distrib_left, BitVec.or_not_self, BitVec.and_allOnes]

/-- Settles O51: the decoded operands are those of a row that matches the word. -/
theorem decodedWordIsTheEncoding : Obligations.DecodedWordIsTheEncoding := by
  unfold Obligations.DecodedWordIsTheEncoding
  intro w i hd
  obtain ⟨r, hr, hs, rfl, hw⟩ := row_of_decode hd
  exact ⟨hw, encode_buildInstr_of_selects hr hs⟩

/-- Settles O49: a word decodes exactly when a row of the opcode map matches it with its operands in range. -/
theorem decoderAcceptsExactlyTheLegalWords : Obligations.DecoderAcceptsExactlyTheLegalWords :=
  Machine.decode_ok_iff_legalWord

end Sys2Proof

namespace Sys2Proof.Machine

/-! ### Accepting a word -/

/-- With `rst` low, a ready block and a command word presented, the instant of the pins accepts the word. -/
theorem pinsEvent_accept {p : Pins} {b : Block} (hps : b.ps = .idle) (hrst : p.rst = false)
    (hcmd : p.cmdValid = true) : pinsEvent p b = .accept p.cmdWord := by
  simp [pinsEvent, hrst, hcmd, hps, (cmdReady_iff b).mpr hps]

/-- The step at which a word is accepted (20_memory.md R61). -/
theorem step_accept {s : State} {p : Pins} (rest : List Input) (hps : s.block.ps = .idle) (hrst : p.rst = false)
    (hcmd : p.cmdValid = true) :
    step { s with inputs := .pins p :: rest } = acceptWord p.cmdWord { s with inputs := rest, rst := false } := by
  calc step { s with inputs := .pins p :: rest }
    _ = applyEvent (pinsEvent p s.block) { s with inputs := rest, rst := p.rst } := rfl
    _ = applyEvent (.accept p.cmdWord) { s with inputs := rest, rst := false } := by
      rw [pinsEvent_accept hps hrst hcmd, hrst]
    _ = acceptWord p.cmdWord { s with inputs := rest, rst := false } := rfl

/-- Settles O31: the word is accepted, and accepting it executes what it decodes to. -/
theorem stepRunsTheDecodedCommand : Obligations.StepRunsTheDecodedCommand := by
  unfold Obligations.StepRunsTheDecodedCommand
  intro s p rest i hps hrst hcmd hd
  rw [step_accept rest hps hrst hcmd, acceptWord, hd]

/-- Settles O32: the word is accepted, and an illegal word decodes to no command. -/
theorem illegalWordSetsOnlyCmderr : Obligations.IllegalWordSetsOnlyCmderr := by
  unfold Obligations.IllegalWordSetsOnlyCmderr
  intro s p rest hps hrst hcmd hl
  obtain ⟨e, hd⟩ := decode_of_illegal hl
  rw [step_accept rest hps hrst hcmd, acceptWord_of_illegal _ hd, illegalCommand, onBlock]

end Sys2Proof.Machine
end

section
/-! The CRC-8 validator (41_crc.md). A round is additive, so a step is linear over GF(2), and as a polynomial over GF(2)
it is the product with `x` reduced by the generator; the checksum of a sequence follows by induction over its bytes. The
commands write the checksum and flag a group that does not verify. -/

open Sys2Proof.Spec

namespace Sys2Proof.Machine

/-! ### The round and the step -/

theorem shiftLeft_one_getLsbD_succ (a : Byte) {i : Nat} (hi : i + 1 < 8) :
    (a <<< 1).getLsbD (i + 1) = a.getLsbD i := by
  rw [BitVec.getLsbD_shiftLeft, decide_eq_true hi]
  simp

/-- A round shifts the byte and, when its top bit was set, adds the generator's low byte. -/
theorem crcRound_eq (a : Byte) : crcRound a = a <<< 1 ^^^ if a.getLsbD 7 then 0x31#8 else 0x00#8 := by
  have hshift : ((a.setWidth 9) <<< 1).setWidth 8 = a <<< 1 := by
    apply BitVec.eq_of_getLsbD_eq
    intro i hi
    simp [hi]
  unfold crcRound
  split
  · rw [BitVec.setWidth_xor, hshift]
    rfl
  · rw [hshift, BitVec.xor_zero]

theorem crcRound_xor (a b : Byte) : crcRound (a ^^^ b) = crcRound a ^^^ crcRound b := by
  have hadded : (if (a ^^^ b).getLsbD 7 then 0x31#8 else 0x00#8) =
      (if a.getLsbD 7 then 0x31#8 else 0x00#8) ^^^ (if b.getLsbD 7 then 0x31#8 else 0x00#8) := by
    rw [BitVec.getLsbD_xor]
    cases a.getLsbD 7 <;> cases b.getLsbD 7 <;> rfl
  rw [crcRound_eq, crcRound_eq, crcRound_eq, BitVec.shiftLeft_xor_distrib, hadded]
  ac_rfl

@[simp] theorem crcRounds_zero_byte (n : Nat) : crcRounds n 0x00#8 = 0x00#8 := by
  induction n with
  | zero => rfl
  | succ n ih => exact ih

theorem crcRounds_xor (n : Nat) (a b : Byte) : crcRounds n (a ^^^ b) = crcRounds n a ^^^ crcRounds n b := by
  induction n generalizing a b with
  | zero => rfl
  | succ n ih => simp only [crcRounds, crcRound_xor, ih]

/-- The generator's constant term: bit 0 after a round is the top bit before it. -/
theorem crcRound_bit_zero (a : Byte) : (crcRound a).getLsbD 0 = a.getLsbD 7 := by
  rw [crcRound_eq]
  cases a.getLsbD 7 <;> simp

/-- Without the generator the round is a shift that loses no bit; with it, bit 0 is set. -/
theorem eq_zero_of_crcRound_eq_zero {a : Byte} (h : crcRound a = 0x00#8) : a = 0x00#8 := by
  have htop : a.getLsbD 7 = false := by rw [← crcRound_bit_zero, h, BitVec.getLsbD_zero]
  have hshift : a <<< 1 = 0x00#8 := by
    rw [crcRound_eq, htop] at h
    simpa using h
  apply BitVec.eq_of_getLsbD_eq
  intro i hi
  rw [BitVec.getLsbD_zero]
  obtain rfl | hlow : i = 7 ∨ i + 1 < 8 := by omega
  · exact htop
  · rw [← shiftLeft_one_getLsbD_succ a hlow, hshift, BitVec.getLsbD_zero]

theorem eq_zero_of_crcRounds_eq_zero {n : Nat} {a : Byte} (h : crcRounds n a = 0x00#8) : a = 0x00#8 := by
  induction n generalizing a with
  | zero => exact h
  | succ n ih => exact eq_zero_of_crcRound_eq_zero (ih h)

/-- Two bytes with the same image differ by a byte of the kernel, which is zero. -/
theorem crcRounds_injective (n : Nat) : Function.Injective (crcRounds n) := by
  intro a b h
  have hdiff : crcRounds n (a ^^^ b) = 0x00#8 := by rw [crcRounds_xor, h, BitVec.xor_self]
  exact BitVec.xor_eq_zero_iff.mp (eq_zero_of_crcRounds_eq_zero hdiff)

theorem crc8Step_xor (a1 a2 b1 b2 : Byte) :
    crc8Step (a1 ^^^ a2) (b1 ^^^ b2) = crc8Step a1 b1 ^^^ crc8Step a2 b2 := by
  have hpair : (a1 ^^^ a2) ^^^ (b1 ^^^ b2) = (a1 ^^^ b1) ^^^ (a2 ^^^ b2) := by ac_rfl
  rw [crc8Step, hpair, crcRounds_xor, crc8Step, crc8Step]

theorem crc8Step_injective (b : Byte) : Function.Injective (fun acc => crc8Step acc b) := by
  intro x y h
  exact (BitVec.xor_left_inj b).mp (crcRounds_injective 8 h)

/-- Stepping a byte into itself leaves nothing. -/
@[simp] theorem crc8Step_self (b : Byte) : crc8Step b b = 0x00#8 := by
  rw [crc8Step, BitVec.xor_self, crcRounds_zero_byte]

/-- Settles O9: the eight rounds are additive, and an additive map with kernel zero permutes the bytes. -/
theorem crcStepIsLinearAndBijective : Obligations.CrcStepIsLinearAndBijective := by
  unfold Obligations.CrcStepIsLinearAndBijective
  exact ⟨crc8Step_xor, crc8Step_self 0x00#8, fun b => Finite.injective_iff_bijective.mp (crc8Step_injective b)⟩

/-- The printed table holds, in order, the eight rounds of every byte value. -/
theorem crcTable_eq_map :
    crcTable = (List.range 256).map (fun v => (crcRounds 8 (BitVec.ofNat 8 v)).toNat) := by
  decide +kernel

/-- Settles O8: the table's entries are the eight rounds of their indices, and `acc ^ b` is an index. -/
theorem crcStepIsTheTable : Obligations.CrcStepIsTheTable := by
  unfold Obligations.CrcStepIsTheTable
  intro acc b
  have hindex : (acc ^^^ b).toNat < 256 := (acc ^^^ b).isLt
  rw [crcTable_eq_map, List.getD_eq_getElem _ _ (by simpa using hindex)]
  simp [crc8Step, -BitVec.toNat_xor]

/-! ### Sequences -/

/-- The last byte is stepped into the checksum of the bytes before it. -/
theorem crc8Compute_append_byte (bytes : List Byte) (b : Byte) :
    crc8Compute (bytes ++ [b]) = crc8Step (crc8Compute bytes) b := List.foldl_append

theorem crc8Feed_append (acc : Byte) (xs ys : List Byte) :
    crc8Feed acc (xs ++ ys) = crc8Feed (crc8Feed acc xs) ys := List.foldl_append

/-- Zero bytes leave the accumulator at the seed. -/
theorem crc8Compute_zeros (k : Nat) : crc8Compute (List.replicate k 0x00#8) = 0x00#8 := by
  induction k with
  | zero => rfl
  | succ k ih => exact ih

theorem crc8Compute_zeros_append (k : Nat) (bytes : List Byte) :
    crc8Compute (List.replicate k 0x00#8 ++ bytes) = crc8Compute bytes := by
  calc crc8Compute (List.replicate k 0x00#8 ++ bytes)
    _ = crc8Feed (crc8Compute (List.replicate k 0x00#8)) bytes := crc8Feed_append ..
    _ = crc8Compute bytes := by rw [crc8Compute_zeros]; rfl

theorem crc8Compute_append_checksum (bytes : List Byte) :
    crc8Compute (bytes ++ [crc8Compute bytes]) = 0x00#8 := by
  rw [crc8Compute_append_byte, crc8Step_self]

/-- Settles O10: the checksum cancels itself, and leading zeros leave the seed. -/
theorem crcResidueAndZeros : Obligations.CrcResidueAndZeros := by
  unfold Obligations.CrcResidueAndZeros
  exact ⟨crc8Compute_append_checksum, crc8Compute_zeros_append, crc8Compute_zeros⟩

/-! ### The polynomial remainder -/

open Polynomial

/-- Exclusive or is addition over GF(2). -/
theorem bytePoly_xor (a b : Byte) : bytePoly (a ^^^ b) = bytePoly a + bytePoly b := by
  unfold bytePoly
  rw [← Finset.sum_add_distrib]
  refine Finset.sum_congr rfl fun i _ => ?_
  cases ha : a.getLsbD i <;> cases hb : b.getLsbD i <;> simp [ha, hb, CharTwo.add_self_eq_zero]

theorem bytePoly_degree_lt (b : Byte) : (bytePoly b).degree < 8 := by
  refine mem_degreeLT.mp (Submodule.sum_mem _ fun i hi => ?_)
  split
  · exact mem_degreeLT.mpr ((degree_X_pow_le i).trans_lt (by exact_mod_cast Finset.mem_range.mp hi))
  · exact Submodule.zero_mem _

theorem generatorPoly_monic : generatorPoly.Monic := by
  unfold generatorPoly
  monicity!

theorem generatorPoly_degree : generatorPoly.degree = 8 := by
  unfold generatorPoly
  compute_degree!

/-- A byte is its own remainder by the generator. -/
theorem bytePoly_modByMonic (b : Byte) : bytePoly b %ₘ generatorPoly = bytePoly b :=
  (modByMonic_eq_self_iff generatorPoly_monic).mpr (generatorPoly_degree ▸ bytePoly_degree_lt b)

/-- A shift is the product with `x`, without the term of degree 8 that leaves the byte. -/
theorem bytePoly_shiftLeft_add (a : Byte) :
    bytePoly (a <<< 1) + (if a.getLsbD 7 then X ^ 8 else 0) = bytePoly a * X := by
  have hterm (i : Nat) (hi : i ∈ Finset.range 7) :
      (if (a <<< 1).getLsbD (i + 1) then X ^ (i + 1) else 0 : (ZMod 2)[X]) =
        (if a.getLsbD i then X ^ i else 0) * X := by
    have hbyte : i + 1 < 8 := Nat.succ_lt_succ (Finset.mem_range.mp hi)
    rw [shiftLeft_one_getLsbD_succ a hbyte, ite_mul, zero_mul, pow_succ]
  have htop : (if a.getLsbD 7 then X ^ 8 else 0 : (ZMod 2)[X]) = (if a.getLsbD 7 then X ^ 7 else 0) * X := by
    rw [ite_mul, zero_mul, pow_succ]
  unfold bytePoly
  rw [Finset.sum_range_succ', Finset.sum_congr rfl hterm, htop, Finset.sum_range_succ _ 7, add_mul, Finset.sum_mul]
  simp

/-- What a round adds is the generator below its leading term. -/
theorem bytePoly_crcPoly_add : bytePoly 0x31#8 + X ^ 8 = generatorPoly := by
  unfold bytePoly generatorPoly
  simp [Finset.sum_range_succ]
  ring

/-- A round is the product with `x`, less the generator when the term of degree 8 appears (41_crc.md R120). -/
theorem bytePoly_crcRound (a : Byte) :
    bytePoly (crcRound a) = bytePoly a * X + if a.getLsbD 7 then generatorPoly else 0 := by
  rw [crcRound_eq, bytePoly_xor, ← bytePoly_shiftLeft_add]
  split
  · calc bytePoly (a <<< 1) + bytePoly 0x31#8
      _ = bytePoly (a <<< 1) + bytePoly 0x31#8 + (X ^ 8 + X ^ 8) := by rw [CharTwo.add_self_eq_zero, add_zero]
      _ = bytePoly (a <<< 1) + X ^ 8 + generatorPoly := by rw [← bytePoly_crcPoly_add]; ring
  · simp [bytePoly]

/-! Modulo the generator a round is the product with `x`, and so `n` rounds are the product with `x^n`. -/

theorem mk_crcRounds (n : Nat) (a : Byte) :
    AdjoinRoot.mk generatorPoly (bytePoly (crcRounds n a)) = AdjoinRoot.mk generatorPoly (bytePoly a * X ^ n) := by
  induction n generalizing a with
  | zero => simp [crcRounds]
  | succ n ih =>
    have hround : AdjoinRoot.mk generatorPoly (bytePoly (crcRound a)) =
        AdjoinRoot.mk generatorPoly (bytePoly a * X) := by
      rw [bytePoly_crcRound]
      split <;> simp
    rw [crcRounds, ih, map_mul, hround, ← map_mul, pow_succ', mul_assoc]

theorem messagePoly_append_byte (bytes : List Byte) (b : Byte) :
    messagePoly (bytes ++ [b]) = messagePoly bytes * X ^ 8 + bytePoly b := List.foldl_append

/-- Each byte steps the checksum and the message's polynomial alike. -/
theorem mk_crc8Compute (bytes : List Byte) :
    AdjoinRoot.mk generatorPoly (bytePoly (crc8Compute bytes)) =
      AdjoinRoot.mk generatorPoly (messagePoly bytes * X ^ 8) := by
  induction bytes using List.reverseRecOn with
  | nil => simp [crc8Compute, crc8Feed, Config.crcSeed, messagePoly, bytePoly]
  | append_singleton bytes b ih =>
    calc AdjoinRoot.mk generatorPoly (bytePoly (crc8Compute (bytes ++ [b])))
      _ = AdjoinRoot.mk generatorPoly ((bytePoly (crc8Compute bytes) + bytePoly b) * X ^ 8) := by
        rw [crc8Compute_append_byte, crc8Step, mk_crcRounds, bytePoly_xor]
      _ = AdjoinRoot.mk generatorPoly ((messagePoly bytes * X ^ 8 + bytePoly b) * X ^ 8) := by
        rw [map_mul, map_add, ih, ← map_add, ← map_mul]
      _ = AdjoinRoot.mk generatorPoly (messagePoly (bytes ++ [b]) * X ^ 8) := by rw [messagePoly_append_byte]

/-- Settles O11: modulo the generator both sides are the message times `x^8`, and a byte is its own remainder. -/
theorem crcIsThePolynomialRemainder : Obligations.CrcIsThePolynomialRemainder := by
  unfold Obligations.CrcIsThePolynomialRemainder
  intro bytes
  calc bytePoly (crc8Compute bytes)
    _ = bytePoly (crc8Compute bytes) %ₘ generatorPoly := (bytePoly_modByMonic _).symm
    _ = (messagePoly bytes * X ^ 8) %ₘ generatorPoly :=
      modByMonic_eq_of_dvd_sub generatorPoly_monic (AdjoinRoot.mk_eq_mk.mp (mk_crc8Compute bytes))

/-! ### The commands -/

theorem exec_crcClr (s : State) : exec .crcClr s = .next { s with block := { s.block with crc := 0x00#8 } } := rfl

theorem exec_crcByte (imm8 : BitVec 8) (s : State) :
    exec (.crcByte imm8) s = .next { s with block := { s.block with crc := crc8Step s.block.crc imm8 } } := rfl

/-- Settles O4: the word is the encoding of `CRC.CLR`. -/
theorem crcClrZeroesTheAccumulator : Obligations.CrcClrZeroesTheAccumulator := by
  unfold Obligations.CrcClrZeroesTheAccumulator
  exact ⟨decodeOfEncodeIsTheInstruction .crcClr rfl, exec_crcClr⟩

theorem runCommands_crcByte (s : State) (bytes : List Byte) :
    runCommands (bytes.map .crcByte) s =
      .next { s with block := { s.block with crc := crc8Feed s.block.crc bytes } } := by
  induction bytes generalizing s with
  | nil => rfl
  | cons b bytes ih =>
    rw [List.map_cons, runCommands, exec_crcByte]
    exact ih _

/-- Settles O12: the clear leaves the seed, and each byte is one step. -/
theorem streamedBytesGiveCompute : Obligations.StreamedBytesGiveCompute := by
  unfold Obligations.StreamedBytesGiveCompute
  intro s bytes
  rw [runCommands, exec_crcClr]
  exact runCommands_crcByte _ bytes

/-- The encoding of operands out of range is an illegal word: `CMDERR` and nothing else (30_encoding.md R99, R100). -/
theorem acceptWord_encode_of_illFormed {i : Instr} (s : State) (h : i.wellFormed = false) :
    acceptWord (encode i) s = .next { s with block := { s.block with cmderr := true } } := by
  obtain ⟨r, hr, hs, hb⟩ := encode_operandFields i
  have hd : decode (encode i) = .error .operandRange := by simp [decode_of_row hr hs, hb, h]
  exact acceptWord_of_illegal s hd

/-- Settles O6: the word is the encoding of `CRC.BUF off, len`, well-formed exactly when the range fits. -/
theorem crcBufComputesOverTheBuffer : Obligations.CrcBufComputesOverTheBuffer := by
  unfold Obligations.CrcBufComputesOverTheBuffer
  refine fun s off len => ⟨fun hrange => ?_, fun hrange => ?_⟩
  · have hw := (wellFormed_crcBuf off len).mpr hrange
    exact ⟨decodeOfEncodeIsTheInstruction _ hw, whenLegal_of_wellFormed _ s hw⟩
  · have hw : (Instr.crcBuf off len).wellFormed = false := by
      simpa [Bool.eq_false_iff, wellFormed_crcBuf] using hrange
    exact acceptWord_encode_of_illFormed s hw

theorem exec_crcVfy {off len : BitVec 4} (s : State) (hw : (Instr.crcVfy off len).wellFormed = true) :
    exec (.crcVfy off len) s = .next { s with
      block := flagVerification (groupVerifies s.block off len)
        { s.block with crc := crc8Compute (dataBytes s.block off len) } } :=
  whenLegal_of_wellFormed _ s hw

/-- Settles O7: the word is the encoding of `CRC.VFY off, len`, well-formed exactly when the group fits, and the two
outcomes are those of the group's verification. -/
theorem crcVfyChecksTheGroup : Obligations.CrcVfyChecksTheGroup := by
  unfold Obligations.CrcVfyChecksTheGroup
  refine fun s off len => ⟨fun hlen hrange => ?_, fun hrange => ?_⟩
  · have hw := (wellFormed_crcVfy off len).mpr ⟨hlen, hrange⟩
    refine ⟨decodeOfEncodeIsTheInstruction _ hw, ?_⟩
    rintro c rfl
    rw [exec_crcVfy s hw]
    refine ⟨fun hok => ?_, fun hbad => ?_⟩
    · rw [(groupVerifies_iff s.block off len).mpr hok, flagVerification_of_ok]
      rfl
    · rw [Bool.eq_false_iff.mpr (mt (groupVerifies_iff s.block off len).mp hbad), flagVerification_of_bad]
      rfl
  · have hw : (Instr.crcVfy off len).wellFormed = false := by
      rw [Bool.eq_false_iff, ne_eq, wellFormed_crcVfy]
      omega
    exact acceptWord_encode_of_illFormed s hw

end Sys2Proof.Machine
end

section
/-! Rounding to 24 significant bits on natural numbers (42_decode.md R141, R144), and `f32` of a dyadic rational: the
value of `f32 (d * 2^k)` is `sign(d) * rne24(|d|) * 2^k`. -/

namespace Sys2Proof.Laws

open Sys2Proof.Machine Sys2Proof.Spec

/-! ### Rounding to 24 significant bits -/

theorem rne24_of_lt {p : Nat} (hp : p < 2 ^ 24) : rne24 p = p := by
  have hlen : (if p = 0 then 0 else Nat.log2 p + 1) ≤ 24 := by
    split
    · omega
    · next h0 => exact Nat.succ_le_of_lt ((Nat.log2_lt h0).mpr hp)
  simp only [rne24, if_pos hlen]

/-- Past 24 bits `rne24` is `roundHalfEven` at the weight of the last bit kept: both round ties to even. -/
theorem rne24_of_ge {p : Nat} (hp : 2 ^ 24 ≤ p) :
    ∃ s, Nat.log2 p = s + 23 ∧ rne24 p = roundHalfEven p (2 ^ s) * 2 ^ s := by
  have h0 : p ≠ 0 := by omega
  obtain ⟨t, hlog⟩ := Nat.exists_eq_add_of_le' ((Nat.le_log2 h0).mpr hp)
  refine ⟨t + 1, by omega, ?_⟩
  have hup : 2 ^ t < p % 2 ^ (t + 1) ↔ 2 ^ (t + 1) < 2 * (p % 2 ^ (t + 1)) := by rw [pow_succ]; omega
  have htie : p % 2 ^ (t + 1) = 2 ^ t ↔ 2 * (p % 2 ^ (t + 1)) = 2 ^ (t + 1) := by rw [pow_succ]; omega
  have hlen : ¬ t + 24 + 1 ≤ 24 := by omega
  have hdrop : t + 24 + 1 - 24 = t + 1 := by omega
  simp only [rne24, roundHalfEven, h0, hlog, if_false, hlen, hdrop, Nat.add_sub_cancel, hup, htie]

/-- What `rne24` gives has at most 24 significant bits, also where rounding carries into a new top bit. -/
theorem rne24_eq_mul_two_pow (p : Nat) : ∃ m s, m < 2 ^ 24 ∧ rne24 p = m * 2 ^ s := by
  by_cases hsmall : p < 2 ^ 24
  · exact ⟨p, 0, hsmall, by rw [rne24_of_lt hsmall, pow_zero, mul_one]⟩
  obtain ⟨s, hlog, hround⟩ := rne24_of_ge (not_lt.mp hsmall)
  have hp : p < 2 ^ 24 * 2 ^ s := by
    rw [← pow_add]
    exact (Nat.log2_lt (by omega)).mp (by omega)
  rw [hround]
  obtain ⟨-, hle⟩ := roundHalfEven_range (lo := 0) (Nat.two_pow_pos s) (by omega) hp
  rcases hle.eq_or_lt with hcarry | hlt
  · exact ⟨2 ^ 23, s + 1, by norm_num, by rw [hcarry]; ring⟩
  · exact ⟨_, s, hlt, rfl⟩

theorem rne24_mul_two_pow {m : Nat} (hm : m < 2 ^ 24) (s : Nat) : rne24 (m * 2 ^ s) = m * 2 ^ s := by
  by_cases hsmall : m * 2 ^ s < 2 ^ 24
  · exact rne24_of_lt hsmall
  obtain ⟨t, hlog, hround⟩ := rne24_of_ge (not_lt.mp hsmall)
  have hhi : Nat.log2 (m * 2 ^ s) < 24 + s := by
    rw [Nat.log2_lt (by omega), pow_add]
    gcongr
  have hmul : m * 2 ^ s = m * 2 ^ (s - t) * 2 ^ t := by
    rw [mul_assoc, ← pow_add, Nat.sub_add_cancel (by omega)]
  rw [hround]
  nth_rw 1 [hmul]
  rw [roundHalfEven_mul (Nat.two_pow_pos t), ← hmul]

theorem rne24_rne24 (p : Nat) : rne24 (rne24 p) = rne24 p := by
  obtain ⟨m, s, hm, hp⟩ := rne24_eq_mul_two_pow p
  rw [hp, rne24_mul_two_pow hm]

/-- Rounding a number below `2^40` to 24 bits moves it by at most half of `2^16`. -/
theorem rne24_error {p : Nat} (hp : p < 2 ^ 40) : p ≤ rne24 p + 2 ^ 15 ∧ rne24 p ≤ p + 2 ^ 15 := by
  by_cases hsmall : p < 2 ^ 24
  · rw [rne24_of_lt hsmall]; omega
  obtain ⟨s, hlog, hround⟩ := rne24_of_ge (not_lt.mp hsmall)
  have hhi : Nat.log2 p < 40 := (Nat.log2_lt (by omega)).mpr hp
  rw [hround]
  have hw : 2 ^ s ≤ 2 ^ 16 := Nat.pow_le_pow_right (by norm_num) (by omega)
  obtain ⟨b1, b2⟩ := roundHalfEven_bounds (Nat.two_pow_pos s) p
  generalize roundHalfEven p (2 ^ s) * 2 ^ s = r at *
  omega

/-! ### `f32` of a dyadic rational -/

/-- The exponent of `p * 2^k` is that of `p`, moved by `k`. -/
theorem floorLog2_dyadic {a d p : Nat} {k : Int} (ha : 0 < a) (hd : 0 < d) (hp : p ≠ 0)
    (hv : (a : ℚ) / d = p * (2 : ℚ) ^ k) : floorLog2 a d = Nat.log2 p + k := by
  have hlo : (2 : ℚ) ^ Nat.log2 p ≤ p := by exact_mod_cast Nat.log2_self_le hp
  have hhi : (p : ℚ) < (2 : ℚ) ^ (Nat.log2 p + 1) := by exact_mod_cast Nat.lt_log2_self
  obtain ⟨h1, h2⟩ := floorLog2_range ha hd (l := Nat.log2 p + k) (u := (Nat.log2 p + 1 : ℕ) + k)
    (by rw [hv, zpow_add₀ two_ne_zero, zpow_natCast]; gcongr)
    (by rw [hv, zpow_add₀ two_ne_zero, zpow_natCast]; gcongr)
  push_cast at h2
  omega

/-- The significand of `p * 2^k`, weighted by its last bit, is `rne24 p`. -/
theorem significand_dyadic {a d p : Nat} {k : Int} (hd : 0 < d) (hp : p ≠ 0)
    (hv : (a : ℚ) / d = p * (2 : ℚ) ^ k) :
    (significand a d (Nat.log2 p + k) : ℚ) * (2 : ℚ) ^ ((Nat.log2 p : ℤ) - 23) = rne24 p := by
  obtain ⟨a', d', hd', hs, ha'⟩ := significand_eq (a := a) hd (Nat.log2 p + k)
  rw [hv, mul_assoc (p : ℚ), ← zpow_add₀ two_ne_zero,
    show k + (23 - (Nat.log2 p + k)) = 23 - (Nat.log2 p : ℤ) by ring] at ha'
  rw [hs]
  rcases lt_or_ge p (2 ^ 24) with hfits | hlong
  · have hlog : Nat.log2 p < 24 := (Nat.log2_lt hp).mpr hfits
    obtain ⟨j, hj⟩ := Nat.exists_eq_add_of_le (by omega : Nat.log2 p ≤ 23)
    rw [show (23 : ℤ) - (Nat.log2 p : ℤ) = j by omega, zpow_natCast] at ha'
    have ha : a' = p * 2 ^ j * d' := by exact_mod_cast ha'
    rw [ha, roundHalfEven_mul hd', rne24_of_lt hfits, show (Nat.log2 p : ℤ) - 23 = -j by omega]
    push_cast
    rw [mul_assoc, zpow_neg, zpow_natCast, mul_inv_cancel₀ (by positivity), mul_one]
  · obtain ⟨s, hlog, hround⟩ := rne24_of_ge hlong
    rw [show (23 : ℤ) - (Nat.log2 p : ℤ) = -s by omega, zpow_neg, zpow_natCast] at ha'
    have hcross : a' * 2 ^ s = p * d' := by
      have : (a' : ℚ) * 2 ^ s = p * d' := by rw [ha']; field_simp
      exact_mod_cast this
    rw [roundHalfEven_congr hd' (Nat.two_pow_pos s) hcross, hround,
      show (Nat.log2 p : ℤ) - 23 = s by omega, zpow_natCast]
    push_cast
    rfl

/-! ### `f32` of an integer times a power of two -/

/-- The rational number a datum stands for. -/
def f32Val (v : Word) : ℚ := fracVal (f32Value v)

/-- A datum that is no zero, subnormal, infinity or NaN (00_scope.md R5). -/
def NormalDatum (v : Word) : Prop :=
  1 ≤ (v.extractLsb' 23 8).toNat ∧ (v.extractLsb' 23 8).toNat ≤ 254

/-- `sign(d) * rne24(|d|)` (42_decode.md R144). -/
def roundInt24 (d : Int) : Int := if d < 0 then -(rne24 d.natAbs : Int) else rne24 d.natAbs

theorem roundInt24_natCast (p : Nat) : roundInt24 p = rne24 p := rfl

theorem roundInt24_of_lt {d : Int} (hd : d.natAbs < 2 ^ 24) : roundInt24 d = d := by
  simp only [roundInt24, rne24_of_lt hd]
  split <;> omega

theorem roundInt24_error {d : Int} (hd : d.natAbs < 2 ^ 40) :
    d ≤ roundInt24 d + 2 ^ 15 ∧ roundInt24 d ≤ d + 2 ^ 15 := by
  have h := rne24_error hd
  simp only [roundInt24]
  split <;> omega

section

variable {q : Frac} {d k : Int}

theorem abs_num_div_den_of_dyadic (hv : fracVal q = d * (2 : ℚ) ^ k) :
    (q.num.natAbs : ℚ) / q.den = d.natAbs * (2 : ℚ) ^ k := by
  have hpow : (0 : ℚ) < 2 ^ k := by positivity
  rw [← abs_fracVal, hv, abs_mul, abs_of_pos hpow, Nat.cast_natAbs, Int.cast_abs]

theorem num_neg_iff_of_dyadic (hq : 0 < q.den) (hv : fracVal q = d * (2 : ℚ) ^ k) : q.num < 0 ↔ d < 0 := by
  have hpow : (0 : ℚ) < 2 ^ k := by positivity
  have hden : (0 : ℚ) < q.den := by exact_mod_cast hq
  have hnum : fracVal q < 0 ↔ q.num < 0 := by
    rw [fracVal, div_lt_iff₀ hden, zero_mul, Int.cast_lt_zero]
  rw [← hnum, hv, ← lt_div_iff₀ hpow, zero_div, Int.cast_lt_zero]

theorem num_eq_zero_iff_of_dyadic (hq : 0 < q.den) (hv : fracVal q = d * (2 : ℚ) ^ k) : q.num = 0 ↔ d = 0 := by
  have hpow : (2 : ℚ) ^ k ≠ 0 := by positivity
  have hden : (q.den : ℚ) ≠ 0 := by positivity
  have hnum : fracVal q = 0 ↔ q.num = 0 := by
    rw [fracVal, div_eq_zero_iff, or_iff_left hden, Int.cast_eq_zero]
  rw [← hnum, hv, mul_eq_zero, or_iff_left hpow, Int.cast_eq_zero]

/-- `d * 2^k` for a `d` below `2^40` has its exponent in the range where `f32` is given (42_decode.md R141). -/
theorem f32_dyadic_normal (hq : 0 < q.den) (hv : fracVal q = d * (2 : ℚ) ^ k) (hk : -126 ≤ k ∧ k ≤ 0)
    (hd : d.natAbs < 2 ^ 40) (h0 : d ≠ 0) :
    NormalDatum (f32 q) ∧ f32Val (f32 q) = roundInt24 d * (2 : ℚ) ^ k := by
  have hp : d.natAbs ≠ 0 := Int.natAbs_ne_zero.mpr h0
  have hn : q.num ≠ 0 := mt (num_eq_zero_iff_of_dyadic hq hv).mp h0
  have habs := abs_num_div_den_of_dyadic hv
  have hexp := floorLog2_dyadic (Int.natAbs_pos.mpr hn) hq hp habs
  have hlog : Nat.log2 d.natAbs < 40 := (Nat.log2_lt hp).mpr hd
  obtain ⟨hnormal, hval⟩ := f32_val hn hq (by omega) (by omega)
  refine ⟨hnormal, hval.trans ?_⟩
  rw [hexp, show (Nat.log2 d.natAbs + k - 23 : ℤ) = (Nat.log2 d.natAbs - 23 : ℤ) + k by ring,
    zpow_add₀ two_ne_zero, mul_assoc, ← mul_assoc (significand _ _ _ : ℚ), significand_dyadic hq hp habs]
  simp only [num_neg_iff_of_dyadic hq hv, roundInt24]
  split <;> push_cast <;> ring

/-- `f32` rounds `d * 2^k` to 24 significant bits of `d`. -/
theorem f32Val_f32 (hq : 0 < q.den) (hv : fracVal q = d * (2 : ℚ) ^ k) (hk : -126 ≤ k ∧ k ≤ 0)
    (hd : d.natAbs < 2 ^ 40) : f32Val (f32 q) = roundInt24 d * (2 : ℚ) ^ k := by
  by_cases h0 : d = 0
  · have hnum : q.num = 0 := (num_eq_zero_iff_of_dyadic hq hv).mpr h0
    subst h0
    simp [f32, hnum, f32Val, fracVal, f32Value, roundInt24, rne24]
  · exact (f32_dyadic_normal hq hv hk hd h0).2

/-- A `d` of exactly 24 bits is the significand itself: nothing is rounded and nothing renormalised. -/
theorem f32_of_significand (hq : 0 < q.den) (hv : fracVal q = d * (2 : ℚ) ^ k) (hlo : 2 ^ 23 ≤ d.natAbs)
    (hhi : d.natAbs < 2 ^ 24) :
    f32 q = BitVec.ofBool (decide (d < 0)) ++ BitVec.ofInt 8 (k + 150) ++ BitVec.ofNat 23 (d.natAbs - 2 ^ 23) := by
  have hp : d.natAbs ≠ 0 := by omega
  have hn : q.num ≠ 0 := mt (num_eq_zero_iff_of_dyadic hq hv).mp (by omega)
  have habs := abs_num_div_den_of_dyadic hv
  have hlog : Nat.log2 d.natAbs = 23 := (Nat.log2_eq_iff hp).mpr ⟨hlo, hhi⟩
  have hexp := floorLog2_dyadic (Int.natAbs_pos.mpr hn) hq hp habs
  have hsig := significand_dyadic hq hp habs
  rw [hlog] at hexp hsig
  rw [rne24_of_lt hhi, Nat.cast_ofNat, sub_self, zpow_zero, mul_one, Nat.cast_inj] at hsig
  have hbias : (23 : ℤ) + k + 127 = k + 150 := by omega
  simp only [f32, hn, if_false, hsig, hhi.ne, hexp, Nat.cast_ofNat, hbias, num_neg_iff_of_dyadic hq hv]

end

/-! ### The operations -/

theorem f32Val_f32OfNat {n : Nat} (hn : n < 2 ^ 24) : f32Val (f32OfNat n) = n := by
  have hint : ((n : Int)).natAbs < 2 ^ 24 := hn
  have h := f32Val_f32 (q := ⟨n, 1⟩) (d := n) (k := 0) one_pos (by simp [fracVal]) (by omega) (by omega)
  rw [roundInt24_of_lt hint] at h
  simpa [f32OfNat] using h

theorem f32Val_f32Mul {x y : Word} {d k : Int} (hv : f32Val x * f32Val y = d * (2 : ℚ) ^ k)
    (hk : -126 ≤ k ∧ k ≤ 0) (hd : d.natAbs < 2 ^ 40) : f32Val (f32Mul x y) = roundInt24 d * (2 : ℚ) ^ k :=
  f32Val_f32 (Nat.mul_pos (f32Value_den_pos x) (f32Value_den_pos y)) ((fracVal_mul _ _).trans hv) hk hd

theorem f32Val_f32Div {x y : Word} {d k : Int} (hy : 0 < (f32Value y).num)
    (hv : f32Val x / f32Val y = d * (2 : ℚ) ^ k) (hk : -126 ≤ k ∧ k ≤ 0) (hd : d.natAbs < 2 ^ 40) :
    f32Val (f32Div x y) = roundInt24 d * (2 : ℚ) ^ k :=
  f32Val_f32 (Nat.mul_pos (f32Value_den_pos x) (by omega)) ((fracVal_div hy).trans hv) hk hd

theorem f32Sub_dyadic_normal {x y : Word} {d k : Int} (hv : f32Val x - f32Val y = d * (2 : ℚ) ^ k)
    (hk : -126 ≤ k ∧ k ≤ 0) (hd : d.natAbs < 2 ^ 40) (h0 : d ≠ 0) :
    NormalDatum (f32Sub x y) ∧ f32Val (f32Sub x y) = roundInt24 d * (2 : ℚ) ^ k :=
  f32_dyadic_normal (Nat.mul_pos (f32Value_den_pos x) (f32Value_den_pos y))
    ((fracVal_sub (f32Value_den_pos x) (f32Value_den_pos y)).trans hv) hk hd h0

theorem f32Lt_iff (x y : Word) : f32Lt x y = true ↔ f32Val x < f32Val y :=
  fracLt_iff (f32Value_den_pos x) (f32Value_den_pos y)

/-! ### The value of a datum on integers -/

theorem f32Value_den_cast_pos (v : Word) : (0 : ℚ) < (f32Value v).den := by exact_mod_cast f32Value_den_pos v

theorem f32Val_eq_div_iff {v : Word} {a : Int} {b : Nat} (hb : b ≠ 0) :
    f32Val v = (a : ℚ) / b ↔ (f32Value v).num * b = a * (f32Value v).den := by
  rw [f32Val, fracVal, div_eq_div_iff (f32Value_den_cast_pos v).ne' (by exact_mod_cast hb)]
  exact_mod_cast Iff.rfl

theorem f32Val_le_iff (v : Word) (b : Int) : f32Val v ≤ b ↔ (f32Value v).num ≤ b * (f32Value v).den := by
  rw [f32Val, fracVal, div_le_iff₀ (f32Value_den_cast_pos v)]
  exact_mod_cast Iff.rfl

theorem f32Val_neg_iff (v : Word) : f32Val v < 0 ↔ (f32Value v).num < 0 := by
  rw [f32Val, fracVal, div_lt_iff₀ (f32Value_den_cast_pos v), zero_mul, Int.cast_lt_zero]

theorem f32Val_pos_iff (v : Word) : 0 < f32Val v ↔ 0 < (f32Value v).num := by
  rw [f32Val, fracVal, lt_div_iff₀ (f32Value_den_cast_pos v), zero_mul, Int.cast_pos]

/-- The sentinel's exponent field is 255. -/
theorem ne_nanBits_of_normal {v : Word} (h : NormalDatum v) : v ≠ Config.nanBits := by
  rintro rfl
  exact absurd h.2 (by decide)

/-! ### Data that need no rounding -/

/-- A datum is its sign, its exponent field and its fraction (00_scope.md R5). -/
theorem datum_eq_append (v : Word) :
    BitVec.ofBool (v.getLsbD 31) ++ v.extractLsb' 23 8 ++ v.extractLsb' 0 23 = v := by
  apply BitVec.eq_of_getLsbD_eq
  intro i hi
  rw [BitVec.getLsbD_append, BitVec.getLsbD_append, BitVec.getLsbD_extractLsb', BitVec.getLsbD_extractLsb']
  by_cases hfrac : i < 23
  · simp [hfrac]
  by_cases hexp : i < 31
  · have hfield : i - 23 < 8 := by omega
    have hplace : 23 + (i - 23) = i := by omega
    simp [hfrac, hfield, hplace]
  · obtain rfl : i = 31 := by omega
    simp

/-- The signed significand of a normal datum. -/
def signedSignificand (v : Word) : Int :=
  if v.getLsbD 31 then -(2 ^ 23 + (v.extractLsb' 0 23).toNat : Int) else 2 ^ 23 + (v.extractLsb' 0 23).toNat

theorem natAbs_signedSignificand (v : Word) :
    (signedSignificand v).natAbs = 2 ^ 23 + (v.extractLsb' 0 23).toNat := by
  unfold signedSignificand
  split <;> omega

theorem signedSignificand_neg_iff (v : Word) : signedSignificand v < 0 ↔ v.getLsbD 31 = true := by
  unfold signedSignificand
  split
  · next h => exact iff_of_true (by omega) h
  · next h => exact iff_of_false (by omega) h

theorem fracVal_f32Value {v : Word} (he : (v.extractLsb' 23 8).toNat ≠ 0) :
    fracVal (f32Value v) = signedSignificand v * (2 : ℚ) ^ (((v.extractLsb' 23 8).toNat : ℤ) - 150) := by
  rw [f32Value_val he, signedSignificand]
  split <;> push_cast <;> ring

/-- Settles O22: the significand of a normal datum has 24 bits already, so its own three fields come back. -/
theorem roundingKeepsBinary32Data : Obligations.RoundingKeepsBinary32Data := by
  unfold Obligations.RoundingKeepsBinary32Data
  intro v hlo _
  have hfrac : (v.extractLsb' 0 23).toNat < 2 ^ 23 := BitVec.isLt _
  have habs := natAbs_signedSignificand v
  calc f32 (f32Value v)
    _ = BitVec.ofBool (decide (signedSignificand v < 0)) ++
          BitVec.ofInt 8 ((v.extractLsb' 23 8).toNat - 150 + 150) ++
          BitVec.ofNat 23 ((signedSignificand v).natAbs - 2 ^ 23) :=
      f32_of_significand (f32Value_den_pos v) (fracVal_f32Value (by omega)) (by omega) (by omega)
    _ = BitVec.ofBool (v.getLsbD 31) ++ v.extractLsb' 23 8 ++ v.extractLsb' 0 23 := by
      simp only [signedSignificand_neg_iff, Bool.decide_eq_true, sub_add_cancel, BitVec.ofInt_natCast, habs,
        Nat.add_sub_cancel_left, BitVec.ofNat_toNat, BitVec.setWidth_eq]
    _ = v := datum_eq_append v

end Sys2Proof.Laws
end

section
/-! The measurement decoder (42_decode.md): both formulas scale the sample, which rounds once, and subtract an offset,
which rounds once; and the commands that load, invalidate and decode the sample. -/

namespace Sys2Proof.Machine

open Sys2Proof.Laws Sys2Proof.Spec

/-! ### What the two formulas share -/

/-- `f32(f32(f32(raw) * c) / 65536)`, the steps before the subtraction (42_decode.md R143, R144). -/
def scaledSample (raw : Half) (c : Word) : Word :=
  f32Div (f32Mul (f32OfNat raw.toNat) c) Config.fullScale

theorem f32Val_fullScale : f32Val Config.fullScale = 2 ^ 16 :=
  ((f32Val_eq_div_iff (a := 2 ^ 16) one_ne_zero).mpr (by decide)).trans (by norm_num)

/-- Only the product rounds: a sample is exact, and the division moves the exponent of a number of 24 bits. -/
theorem f32Val_scaledSample (raw : Half) {c : Word} {n : Nat} {k : Int} (hc : f32Val c = n * (2 : ℚ) ^ k)
    (hn : n < 2 ^ 24) (hk : -110 ≤ k ∧ k ≤ 0) :
    f32Val (scaledSample raw c) = (rne24 (raw.toNat * n) : Int) * (2 : ℚ) ^ (k - 16) := by
  have hraw : raw.toNat < 2 ^ 16 := raw.isLt
  have hsize : raw.toNat * n ≤ (2 ^ 16 - 1) * (2 ^ 24 - 1) := Nat.mul_le_mul (by omega) (by omega)
  have herr := rne24_error (p := raw.toNat * n) (by omega)
  have hproduct : f32Val (f32Mul (f32OfNat raw.toNat) c) = (rne24 (raw.toNat * n) : Int) * (2 : ℚ) ^ k := by
    rw [← roundInt24_natCast]
    refine f32Val_f32Mul ?_ (by omega) (by omega)
    rw [f32Val_f32OfNat (by omega), hc, ← mul_assoc]
    norm_cast
  have hround : roundInt24 (rne24 (raw.toNat * n)) = rne24 (raw.toNat * n) := by
    rw [roundInt24_natCast, rne24_rne24]
  rw [← hround]
  refine f32Val_f32Div (by decide) ?_ (by omega) (by omega)
  rw [hproduct, f32Val_fullScale, zpow_sub₀ two_ne_zero, mul_div_assoc]
  norm_cast

/-- A scaled sample less an offset `m`, both counted in the same power of two, is rounded once more. -/
theorem f32Sub_scaledSample (raw : Half) {c offset : Word} {n m : Nat} {k : Int} (hc : f32Val c = n * (2 : ℚ) ^ k)
    (hoffset : f32Val offset = m * (2 : ℚ) ^ (k - 16)) (hn : n < 2 ^ 24) (hk : -110 ≤ k ∧ k ≤ 0)
    (hd : ((rne24 (raw.toNat * n) : Int) - m).natAbs < 2 ^ 40) (h0 : (rne24 (raw.toNat * n) : Int) - m ≠ 0) :
    NormalDatum (f32Sub (scaledSample raw c) offset) ∧
    f32Val (f32Sub (scaledSample raw c) offset) =
      roundInt24 (rne24 (raw.toNat * n) - m) * (2 : ℚ) ^ (k - 16) := by
  refine f32Sub_dyadic_normal ?_ (by omega) hd h0
  rw [f32Val_scaledSample raw hc hn hk, hoffset, ← sub_mul]
  norm_cast

/-! ### The humidity -/

theorem f32Val_rhMul : f32Val Config.rhMul = (125 : Nat) * (2 : ℚ) ^ (0 : Int) :=
  ((f32Val_eq_div_iff (a := 125) one_ne_zero).mpr (by decide)).trans (by norm_num)

/-- The offset 6 in units of `2^-16`. -/
theorem f32Val_rhOff : f32Val Config.rhOff = (393216 : Nat) * (2 : ℚ) ^ (0 - 16 : Int) :=
  ((f32Val_eq_div_iff (a := 393216) (b := 2 ^ 16) (by norm_num)).mpr (by decide)).trans (by norm_num)

theorem f32Val_rhMax : f32Val Config.rhMax = 100 :=
  ((f32Val_eq_div_iff (a := 100) one_ne_zero).mpr (by decide)).trans (by norm_num)

/-- The humidity before the clamp (42_decode.md R143). -/
def unclampedHumidity (raw : Half) : Word :=
  f32Sub (scaledSample raw Config.rhMul) Config.rhOff

theorem decodeHumidity_eq (raw : Half) : decodeHumidity raw =
    if f32Lt Config.rhMax (unclampedHumidity raw) then Config.rhMax else unclampedHumidity raw := rfl

/-- No step of the humidity rounds: every numerator has at most 24 bits. -/
theorem unclampedHumidity_exact (raw : Half) : NormalDatum (unclampedHumidity raw) ∧
    f32Val (unclampedHumidity raw) = ((125 * (raw.toNat : Int) - 393216 : Int) : ℚ) / 65536 := by
  have hraw : raw.toNat < 2 ^ 16 := raw.isLt
  have hproduct : rne24 (raw.toNat * 125) = raw.toNat * 125 := rne24_of_lt (by omega)
  obtain ⟨hnormal, hval⟩ :=
    f32Sub_scaledSample raw f32Val_rhMul f32Val_rhOff (by norm_num) (by norm_num) (by omega) (by omega)
  have hnum : roundInt24 (rne24 (raw.toNat * 125) - (393216 : Nat)) = 125 * (raw.toNat : Int) - 393216 := by
    rw [roundInt24_of_lt (by omega), hproduct]
    omega
  rw [hnum] at hval
  exact ⟨hnormal, hval.trans (by norm_num [div_eq_mul_inv])⟩

/-- The clamp applies from 55575 on: `125 * 55574 - 393216 <= 100 * 65536 < 125 * 55575 - 393216`. -/
theorem humidity_clamps_iff (raw : Half) :
    f32Lt Config.rhMax (unclampedHumidity raw) = true ↔ 55575 ≤ raw.toNat := by
  rw [f32Lt_iff, f32Val_rhMax, (unclampedHumidity_exact raw).2, lt_div_iff₀ (by norm_num),
    show (100 * 65536 : ℚ) = (6553600 : Int) by norm_num, Int.cast_lt]
  omega

theorem decodeHumidity_of_ge {raw : Half} (h : 55575 ≤ raw.toNat) : decodeHumidity raw = Config.rhMax := by
  rw [decodeHumidity_eq, if_pos ((humidity_clamps_iff raw).mpr h)]

theorem decodeHumidity_of_le {raw : Half} (h : raw.toNat ≤ 55574) : decodeHumidity raw = unclampedHumidity raw := by
  rw [decodeHumidity_eq, if_neg (by rw [humidity_clamps_iff]; omega)]

/-- Settles O18: below the clamp no step rounds, and the clamp is the binary32 comparison with 100. -/
theorem humidityIsExactAndClampedAbove : Obligations.HumidityIsExactAndClampedAbove := by
  unfold Obligations.HumidityIsExactAndClampedAbove
  refine fun raw => ⟨fun hle => ?_, fun hge => decodeHumidity_of_ge hge, ?_⟩
  · rw [decodeHumidity_of_le hle]
    exact (f32Val_eq_div_iff (by norm_num)).mp (unclampedHumidity_exact raw).2
  · rw [← f32Val_le_iff _ 100, decodeHumidity_eq]
    split
    · exact f32Val_rhMax.le
    · next hclamp =>
      rw [f32Lt_iff, f32Val_rhMax, not_lt] at hclamp
      exact_mod_cast hclamp

/-! ### The temperature -/

theorem f32Val_tMul : f32Val Config.tMul = (11515986 : Nat) * (2 : ℚ) ^ (-16 : Int) :=
  ((f32Val_eq_div_iff (a := 11515986) (b := 2 ^ 16) (by norm_num)).mpr (by decide)).trans (by norm_num)

/-- The offset `12281446 * 2^-18` in units of `2^-32`. -/
theorem f32Val_tOff : f32Val Config.tOff = (201219211264 : Nat) * (2 : ℚ) ^ (-16 - 16 : Int) :=
  ((f32Val_eq_div_iff (a := 201219211264) (b := 2 ^ 32) (by norm_num)).mpr (by decide)).trans (by norm_num)

theorem decodeTemperature_eq (raw : Half) :
    decodeTemperature raw = f32Sub (scaledSample raw Config.tMul) Config.tOff := rfl

/-- What `temperatureScaled` rounds last. -/
theorem temperatureScaled_eq (raw : Nat) :
    temperatureScaled raw = roundInt24 (rne24 (raw * 11515986) - 201219211264) := rfl

/-- Each of its two roundings moves the scaled temperature by at most `2^15`. -/
theorem temperatureScaled_error {raw : Nat} (hraw : raw < 2 ^ 16) :
    (raw * 11515986 : Int) - 201219211264 ≤ temperatureScaled raw + 2 ^ 16 ∧
    temperatureScaled raw ≤ (raw * 11515986 : Int) - 201219211264 + 2 ^ 16 := by
  have h1 := rne24_error (p := raw * 11515986) (by omega)
  have h2 := roundInt24_error (d := rne24 (raw * 11515986) - 201219211264) (by omega)
  rw [temperatureScaled_eq]
  omega

/-- The product and the difference round; what they give is counted in units of `2^-32`. -/
theorem decodeTemperature_scaled (raw : Half) : NormalDatum (decodeTemperature raw) ∧
    f32Val (decodeTemperature raw) = (temperatureScaled raw.toNat : ℚ) / (2 ^ 32 : Nat) := by
  have hraw : raw.toNat < 2 ^ 16 := raw.isLt
  have herr := rne24_error (p := raw.toNat * 11515986) (by omega)
  obtain ⟨hnormal, hval⟩ :=
    f32Sub_scaledSample raw f32Val_tMul f32Val_tOff (by norm_num) (by norm_num) (by omega) (by omega)
  rw [decodeTemperature_eq, temperatureScaled_eq]
  exact ⟨hnormal, hval.trans (by norm_num [div_eq_mul_inv])⟩

/-- Settles O19: the scaled value over `2^32`, multiplied out. -/
theorem temperatureEqualsItsIntegerForm : Obligations.TemperatureEqualsItsIntegerForm := by
  unfold Obligations.TemperatureEqualsItsIntegerForm
  exact fun raw => (f32Val_eq_div_iff (by norm_num)).mp (decodeTemperature_scaled raw).2

/-- One sample more adds 11515986 to what is rounded, far more than the roundings can take back. -/
theorem temperatureScaled_lt {r r' : Nat} (h : r < r') (hr' : r' < 2 ^ 16) :
    temperatureScaled r < temperatureScaled r' := by
  have h1 := temperatureScaled_error (h.trans hr')
  have h2 := temperatureScaled_error hr'
  omega

theorem temperatureScaled_neg_iff {raw : Nat} (hraw : raw < 2 ^ 16) : temperatureScaled raw < 0 ↔ raw ≤ 17473 := by
  have h := temperatureScaled_error hraw
  omega

theorem temperatureScaled_pos_iff {raw : Nat} (hraw : raw < 2 ^ 16) : 0 < temperatureScaled raw ↔ 17474 ≤ raw := by
  have h := temperatureScaled_error hraw
  omega

/-- Settles O20: the order and the sign of the scaled values; the two end data are evaluated. -/
theorem temperatureIncreasesStrictly : Obligations.TemperatureIncreasesStrictly := by
  unfold Obligations.TemperatureIncreasesStrictly
  have hscale : (0 : ℚ) < (2 ^ 32 : Nat) := by norm_num
  refine ⟨fun r r' h => ?_, fun r => ?_, fun r => ?_, by decide, by decide⟩
  · rw [f32Lt_iff, (decodeTemperature_scaled r).2, (decodeTemperature_scaled r').2,
      div_lt_div_iff_of_pos_right hscale, Int.cast_lt]
    exact temperatureScaled_lt h r'.isLt
  · rw [← f32Val_neg_iff, (decodeTemperature_scaled r).2, div_lt_iff₀ hscale, zero_mul, Int.cast_lt_zero]
    exact temperatureScaled_neg_iff r.isLt
  · rw [← f32Val_pos_iff, (decodeTemperature_scaled r).2, lt_div_iff₀ hscale, zero_mul, Int.cast_pos]
    exact temperatureScaled_pos_iff r.isLt

/-! ### The sentinel -/

theorem decodeHumidity_normal (raw : Half) : NormalDatum (decodeHumidity raw) := by
  rw [decodeHumidity_eq]
  split
  · exact ⟨by decide, by decide⟩
  · exact (unclampedHumidity_exact raw).1

theorem decodeTemperature_normal (raw : Half) : NormalDatum (decodeTemperature raw) :=
  (decodeTemperature_scaled raw).1

theorem decodedOr_of_valid {b : Block} (formula : Half → Word) (h : b.rawv = true) :
    decodedOr formula b = formula b.raw := by simp [decodedOr, h]

theorem decodedOr_of_invalid {b : Block} (formula : Half → Word) (h : b.rawv = false) :
    decodedOr formula b = Config.nanBits := by simp [decodedOr, h]

/-- A formula that gives only normal data leaves the sentinel exactly for an invalid sample. -/
theorem decodedOr_eq_nanBits_iff {formula : Half → Word} (hf : ∀ raw, NormalDatum (formula raw)) (b : Block) :
    decodedOr formula b = Config.nanBits ↔ b.rawv = false := by
  cases hv : b.rawv with
  | true => simp [decodedOr_of_valid formula hv, ne_nanBits_of_normal (hf b.raw)]
  | false => simp [decodedOr_of_invalid formula hv]

theorem exec_decRh (s : State) :
    exec .decRh s = .next { s with block := { s.block with result := decodedOr decodeHumidity s.block } } := rfl

theorem exec_decT (s : State) :
    exec .decT s = .next { s with block := { s.block with result := decodedOr decodeTemperature s.block } } := rfl

/-- Settles O21: both formulas give normal data, which the sentinel is not. -/
theorem sentinelExactlyOfInvalidSamples : Obligations.SentinelExactlyOfInvalidSamples := by
  unfold Obligations.SentinelExactlyOfInvalidSamples
  exact ⟨fun raw => ⟨decodeHumidity_normal raw, decodeTemperature_normal raw⟩,
    fun s => ⟨_, _, exec_decRh s, exec_decT s, decodedOr_eq_nanBits_iff decodeHumidity_normal s.block,
      decodedOr_eq_nanBits_iff decodeTemperature_normal s.block⟩⟩

/-! ### The commands -/

/-- Settles O13: the word is the encoding of `SMP.SET imm16`. -/
theorem smpSetLoadsTheGivenSample : Obligations.SmpSetLoadsTheGivenSample := by
  unfold Obligations.SmpSetLoadsTheGivenSample
  exact fun s imm16 => ⟨decodeOfEncodeIsTheInstruction (.smpSet imm16) rfl, rfl⟩

theorem loadedValid_eq (b : Block) (off : BitVec 4) :
    loadedValid b off = decide (off.toNat + 2 ≤ b.bufcnt.toNat ∧ b.crcerr = false) := by
  rw [Bool.eq_iff_iff, loadedValid_iff, decide_eq_true_eq]

/-- Settles O14: the word is the encoding of `SMP.LD off`, well-formed exactly when both bytes lie in the buffer. -/
theorem smpLdLoadsFromTheBuffer : Obligations.SmpLdLoadsFromTheBuffer := by
  unfold Obligations.SmpLdLoadsFromTheBuffer
  refine fun s off => ⟨fun hrange => ?_, fun hrange => ?_⟩
  · have hw := (wellFormed_smpLd off).mpr hrange
    refine ⟨decodeOfEncodeIsTheInstruction _ hw, ?_⟩
    rw [← loadedValid_eq]
    exact whenLegal_of_wellFormed _ s hw
  · have hw : (Instr.smpLd off).wellFormed = false := by
      simpa [Bool.eq_false_iff, wellFormed_smpLd] using hrange
    exact acceptWord_encode_of_illFormed s hw

/-- Settles O15: the word is the encoding of `SMP.INV`. -/
theorem smpInvInvalidatesTheSample : Obligations.SmpInvInvalidatesTheSample := by
  unfold Obligations.SmpInvInvalidatesTheSample
  exact ⟨decodeOfEncodeIsTheInstruction .smpInv rfl, fun _ => rfl⟩

/-- Settles O16: the word is the encoding of `DEC.RH`, and `RAWV` decides between the formula and the sentinel. -/
theorem decRhDecodesOrGivesTheSentinel : Obligations.DecRhDecodesOrGivesTheSentinel := by
  unfold Obligations.DecRhDecodesOrGivesTheSentinel
  refine ⟨decodeOfEncodeIsTheInstruction .decRh rfl, fun s => ⟨fun hv => ?_, fun hv => ?_⟩⟩
  · rw [exec_decRh, decodedOr_of_valid _ hv]
  · rw [exec_decRh, decodedOr_of_invalid _ hv, Config.nanBits]

/-- Settles O17: the word is the encoding of `DEC.T`, and `RAWV` decides between the formula and the sentinel. -/
theorem decTDecodesOrGivesTheSentinel : Obligations.DecTDecodesOrGivesTheSentinel := by
  unfold Obligations.DecTDecodesOrGivesTheSentinel
  refine ⟨decodeOfEncodeIsTheInstruction .decT rfl, fun s => ⟨fun hv => ?_, fun hv => ?_⟩⟩
  · rw [exec_decT, decodedOr_of_valid _ hv]
  · rw [exec_decT, decodedOr_of_invalid _ hv, Config.nanBits]

end Sys2Proof.Machine
end

section
/-! The poll state machine event by event (43_poll.md R162 to R168): the start, the two outcomes of an answer, the two
of an enabled `wake`, and what no event of a running poll writes. -/

namespace Sys2Proof.Machine

/-! ### The start -/

/-- Settles O23: the word is the encoding of `POLL n, b, t`, well-formed exactly when both ranges hold, and the start
leaves an empty buffer. -/
theorem pollStartClearsLatchesAndRequests : Obligations.PollStartClearsLatchesAndRequests := by
  unfold Obligations.PollStartClearsLatchesAndRequests
  refine fun s n b t => ⟨fun hn1 hn8 hb2 hb6 => ?_, fun hrange => ?_⟩
  · have hw := (wellFormed_poll n b t).mpr ⟨⟨hn1, hn8⟩, hb2, hb6⟩
    exact ⟨decodeOfEncodeIsTheInstruction _ hw, _, exec_of_wellFormed s hw, Memory.read_nil, rfl⟩
  · have hw : (Instr.poll n b t).wellFormed = false := by
      rw [Bool.eq_false_iff, ne_eq, wellFormed_poll]
      omega
    exact acceptWord_encode_of_illFormed s hw

/-! ### The answer -/

/-- With `rst` low and a request outstanding, a response presented is taken, whatever the command pins say
(60_exceptions.md R237). -/
theorem pinsEvent_respond {p : Pins} {b : Block} (hrst : p.rst = false) (hrsp : p.rspValid = true)
    (hps : b.ps = .req) : pinsEvent p b = .respond p.rspCount p.rspData := by
  simp [pinsEvent, hrst, hrsp, hps]

/-- The step at which an answer is taken, its count not yet looked at (20_memory.md R65). -/
theorem step_respond {s : State} {p : Pins} (rest : List Input) (hrst : p.rst = false) (hrsp : p.rspValid = true)
    (hps : s.block.ps = .req) :
    step { s with inputs := .pins p :: rest } = .next { s with
      inputs := rest, rst := false,
      block := if p.rspCount = s.block.pn then attemptSucceeds p.rspData s.block else attemptFails s.now s.block,
      history := s.history ++ [.response p.rspCount p.rspData] } := by
  calc step { s with inputs := .pins p :: rest }
    _ = applyEvent (pinsEvent p s.block) { s with inputs := rest, rst := p.rst } := rfl
    _ = applyEvent (.respond p.rspCount p.rspData) { s with inputs := rest, rst := false } := by
      rw [pinsEvent_respond hrst hrsp hps, hrst]
    _ = _ := by simp [applyEvent_eq, eventEffect, eventEmits, eventTime, hps]

/-- Settles O25: the answer is taken, and its count makes the attempt a failed one. -/
theorem otherAnswerGoesToSleep : Obligations.OtherAnswerGoesToSleep := by
  unfold Obligations.OtherAnswerGoesToSleep
  intro s p rest hrst hrsp hps hcount
  rw [step_respond rest hrst hrsp hps, if_neg hcount, attemptFails]

/-- After a successful attempt `BUF[i]` for `i < PN` is the response byte `d[i]` (43_poll.md R163). -/
theorem read_attemptSucceeds {b : Block} (d : BitVec 64) {i : Nat} (hwf : Memory.wf b.buf) (hn8 : b.pn.toNat ≤ 8)
    (hi : i < b.pn.toNat) : Memory.read (attemptSucceeds d b).buf i = responseByte d i := by
  have hread := read_writeBytes_inside (vs := responseBytes d b.pn.toNat) (a := 0) hwf (by simpa using hn8)
    (by simpa using hi)
  simpa [attemptSucceeds, responseBytes] using hread

/-- Settles O24: the answer is taken, its bytes are written from `BUF[0]` on, and beyond them the buffer is zero, as the
invariants have it after a success. -/
theorem exactAnswerEndsThePoll : Obligations.ExactAnswerEndsThePoll := by
  unfold Obligations.ExactAnswerEndsThePoll
  intro s p rest hinv hrst hrsp hps hcount
  have hbusy : s.block.ps ≠ .idle := by simp [hps]
  obtain ⟨-, -, -, -, -, -, hn8, -, -⟩ := hinv.block.busyClear hbusy
  rw [step_respond rest hrst hrsp hps, if_pos hcount]
  exact ⟨_, rfl, fun i hi => read_attemptSucceeds p.rspData hinv.buffer hn8 hi,
    (hinv.block.succeed hbusy p.rspData).zeroBeyondCount, rfl⟩

/-! ### The wake -/

/-- A `wake` with `rst` released: the input is taken and the event happens. -/
theorem step_wake (s : State) (rest : List Input) (hr : s.rst = false) :
    step { s with inputs := .wake :: rest } = .next { s with
      inputs := rest, block := eventEffect .wake s.now s.block,
      history := s.history ++ eventEmits .wake s.now s.block } := by
  calc step { s with inputs := .wake :: rest }
    _ = unlessReset (applyEvent .wake) { s with inputs := rest } := rfl
    _ = applyEvent .wake { s with inputs := rest } := unlessReset_of_released (applyEvent .wake) hr
    _ = _ := applyEvent_eq .wake { s with inputs := rest }

/-- Settles O26: a held reset lets no `wake` happen, and with `rst` released the guard is false. -/
theorem wakeWaitsForTheBackoff : Obligations.WakeWaitsForTheBackoff := by
  unfold Obligations.WakeWaitsForTheBackoff
  intro s rest hearly
  obtain hr | hr := Bool.eq_false_or_eq_true s.rst
  · exact unlessReset_of_asserted (s := { s with inputs := rest }) (applyEvent .wake) hr
  · have hw : ¬wakeEnabled s.now s.block = true := by
      rw [wakeEnabled_iff]
      exact fun ⟨hps, hpb⟩ => hearly.elim (absurd hps) (Nat.not_lt.mpr hpb)
    simp [step_wake s rest hr, eventEffect, eventEmits, hw]

/-- Settles O27: the guard holds, and the deadline test decides between the retry and the time-out. -/
theorem enabledWakeRetriesOrTimesOut : Obligations.EnabledWakeRetriesOrTimesOut := by
  unfold Obligations.EnabledWakeRetriesOrTimesOut
  intro s rest hr hps hpb
  have hw : wakeEnabled s.now s.block = true := (wakeEnabled_iff s.now s.block).mpr ⟨hps, hpb⟩
  rw [step_wake s rest hr]
  refine ⟨fun hin => ?_, fun hpast => ?_⟩
  · have hd : ¬deadlinePassed s.now s.block = true := by rw [deadlinePassed_iff]; omega
    simp [eventEffect, eventEmits, hw, hd]
  · have hd : deadlinePassed s.now s.block = true := (deadlinePassed_iff s.now s.block).mpr hpast
    simp [eventEffect, eventEmits, hw, hd]

/-! ### What a running poll keeps -/

/-- Settles O29: a running block accepts no command, and of the cases of a step that are left only the exact answer and
the time-out enter `IDLE`; none of them writes the elements named. -/
theorem nothingCancelsAPoll : Obligations.NothingCancelsAPoll := by
  unfold Obligations.NothingCancelsAPoll
  intro s t hbusy h
  refine ⟨Option.eq_none_iff_forall_ne_some.mpr fun i hc => hbusy (idle_of_command hc), fun hr => ?_⟩
  cases step_cases h with
  | quiet he hn hb => simp [hb, hbusy]
  | command w i he hd hn hb => exact absurd (idle_of_accept he) hbusy
  | illegal w he hl hn hb => exact absurd (idle_of_accept he) hbusy
  | exactAnswer d he hn hb => simp [hb, attemptSucceeds, he]
  | otherAnswer cnt d he hc hn hb => simp [hb, attemptFails]
  | idleWake he hw hn hb => simp [hb, hbusy]
  | timeout he hw hp hn hb =>
    rw [← deadlinePassed_iff]
    simp [hb, he, hp]
  | retry he hw hp hn hb => simp [hb]
  | reset he hn hb => exact absurd he hr

end Sys2Proof.Machine
end

section
/-! Whole rounds of a poll (43_poll.md section 3, R169 to R172): runs of given inputs put together one after another. -/

namespace Sys2Proof.Machine

/-! ### Runs of given inputs -/

theorem runSteps_add {j k : Nat} {s t : State} (h : runSteps j s = .next t) :
    runSteps (j + k) s = runSteps k t := by
  induction j generalizing s with
  | zero =>
    cases h
    rw [Nat.zero_add]
  | succ j ih =>
    obtain ⟨s', hs⟩ := step_completes s
    rw [Nat.succ_add]
    simp only [runSteps, hs] at h ⊢
    exact ih h

/-- The inputs `events`, whatever comes after them, take `s` to `t`. What the two states themselves list as coming
inputs does not count. -/
def RunsTo (events : List Input) (s t : State) : Prop :=
  ∀ rest, runSteps events.length { s with inputs := events ++ rest } = .next { t with inputs := rest }

theorem RunsTo.nil (s : State) : RunsTo [] s s := fun _ => rfl

theorem RunsTo.single {i : Input} {s t : State}
    (h : ∀ rest, step { s with inputs := i :: rest } = .next { t with inputs := rest }) : RunsTo [i] s t :=
  fun rest => by simp [runSteps, h rest]

theorem RunsTo.append {es fs : List Input} {s t u : State} (h : RunsTo es s t) (h' : RunsTo fs t u) :
    RunsTo (es ++ fs) s u := fun rest => by
  rw [List.length_append, List.append_assoc, runSteps_add (h (fs ++ rest)), h' rest]

/-- Exactly these inputs, with none after them. -/
theorem RunsTo.run {events : List Input} {s t : State} (h : RunsTo events s t) :
    runSteps events.length { s with inputs := events } = .next { t with inputs := [] } := by
  simpa using h []

/-! ### Time -/

/-- `n` ticks with `rst` released advance the time and change nothing else. -/
theorem runsTo_ticks {s : State} (hr : s.rst = false) (n : Nat) :
    RunsTo (List.replicate n .tick) s { s with now := s.now + BitVec.ofNat 32 n } := by
  induction n with
  | zero => simpa using RunsTo.nil s
  | succ n ih =>
    have hlast : RunsTo [.tick] { s with now := s.now + BitVec.ofNat 32 n }
        { s with now := s.now + BitVec.ofNat 32 n + 1#32 } :=
      .single fun rest => step_tick { s with now := s.now + BitVec.ofNat 32 n } rest hr
    simpa [List.replicate_succ', BitVec.ofNat_add, BitVec.add_assoc] using ih.append hlast

/-- Elapsed time is exact below 2^32 milliseconds, across a wrap of the clock too (43_poll.md R169). -/
theorem toNat_elapsed_add {now latch : Word} {n : Nat} (h : (now - latch).toNat + n < 2 ^ 32) :
    (now + BitVec.ofNat 32 n - latch).toNat = (now - latch).toNat + n := by
  bv_omega

/-! ### A failed attempt and its end -/

/-- The state `wait` milliseconds after the failed attempt that the answer `p` made of the request outstanding in `s`,
`answerDelay` milliseconds after `s` (43_poll.md R164). -/
def afterBackoff (answerDelay wait : Nat) (p : Pins) (s : State) : State :=
  { s with
    now := s.now + BitVec.ofNat 32 answerDelay + BitVec.ofNat 32 wait, rst := false,
    block := attemptFails (s.now + BitVec.ofNat 32 answerDelay) s.block,
    history := s.history ++ [.response p.rspCount p.rspData] }

theorem runsTo_afterBackoff {s : State} {p : Pins} (answerDelay wait : Nat) (hr : s.rst = false)
    (hps : s.block.ps = .req) (hrst : p.rst = false) (hrsp : p.rspValid = true) (hcount : p.rspCount ≠ s.block.pn) :
    RunsTo (List.replicate answerDelay .tick ++ [.pins p] ++ List.replicate wait .tick) s
      (afterBackoff answerDelay wait p s) := by
  have hanswer : RunsTo [.pins p] { s with now := s.now + BitVec.ofNat 32 answerDelay }
      (afterBackoff answerDelay 0 p s) := .single fun rest => by
    simpa [afterBackoff, attemptFails] using
      otherAnswerGoesToSleep { s with now := s.now + BitVec.ofNat 32 answerDelay } p rest hrst hrsp hps hcount
  have hwait := runsTo_ticks (s := afterBackoff answerDelay 0 p s) rfl wait
  simpa [afterBackoff] using ((runsTo_ticks hr answerDelay).append hanswer).append hwait

/-- The state after an enabled `wake` up to the deadline (43_poll.md R166). -/
def retried (s : State) : State :=
  { s with block := { s.block with ps := .req }, history := s.history ++ [.request s.block.addr s.block.pn] }

/-- The state after an enabled `wake` past the deadline (43_poll.md R167). -/
def timedOut (s : State) : State := { s with block := { s.block with pto := true, ps := .idle } }

section
variable {s : State} (hr : s.rst = false) (hps : s.block.ps = .sleep)
  (hpb : s.block.pb.toNat ≤ (s.now - s.block.ts).toNat)
include hr hps hpb

theorem runsTo_retried (hin : (s.now - s.block.t0).toNat ≤ s.block.pt.toNat) : RunsTo [.wake] s (retried s) :=
  .single fun rest => (enabledWakeRetriesOrTimesOut s rest hr hps hpb).1 hin

theorem runsTo_timedOut (hpast : s.block.pt.toNat < (s.now - s.block.t0).toNat) : RunsTo [.wake] s (timedOut s) :=
  .single fun rest => (enabledWakeRetriesOrTimesOut s rest hr hps hpb).2 hpast

end

/-- Time since the failed attempt, by which the guard of `wake` is tested (43_poll.md R165). -/
theorem toNat_since_failure (answerDelay : Nat) {wait : Nat} (p : Pins) (s : State) (h : wait < 2 ^ 32) :
    ((afterBackoff answerDelay wait p s).now - (afterBackoff answerDelay wait p s).block.ts).toNat = wait := by
  have hsum := toNat_elapsed_add (now := s.now + BitVec.ofNat 32 answerDelay)
    (latch := s.now + BitVec.ofNat 32 answerDelay) (n := wait) (by simpa using h)
  simpa [afterBackoff, attemptFails] using hsum

/-- Time since the `POLL` start, by which the deadline is tested (43_poll.md R169). -/
theorem toNat_since_start {answerDelay wait : Nat} (p : Pins) {s : State}
    (h : (s.now - s.block.t0).toNat + answerDelay + wait < 2 ^ 32) :
    ((afterBackoff answerDelay wait p s).now - s.block.t0).toNat =
      (s.now - s.block.t0).toNat + answerDelay + wait := by
  have hanswer := toNat_elapsed_add (now := s.now) (latch := s.block.t0) (n := answerDelay) (by omega)
  rw [afterBackoff, toNat_elapsed_add (by omega), hanswer]

/-- Settles O28: the attempt fails, the backoff and the latency pass, and the `wake` retries or times out. -/
theorem aFailedRoundEndsAtItsTrueTime : Obligations.AFailedRoundEndsAtItsTrueTime := by
  unfold Obligations.AFailedRoundEndsAtItsTrueTime
  rintro s answerDelay latency p events hr hps hrst hrsp hcount hbound rfl
  have hfail := runsTo_afterBackoff answerDelay (s.block.pb.toNat + latency) hr hps hrst hrsp hcount
  rw [Nat.add_assoc (_ + answerDelay)] at hbound ⊢
  have hwake := (Nat.le_add_right s.block.pb.toNat latency).trans_eq
    (toNat_since_failure answerDelay p s (by omega)).symm
  have htime := toNat_since_start p hbound
  by_cases hin : (s.now - s.block.t0).toNat + answerDelay + (s.block.pb.toNat + latency) ≤ s.block.pt.toNat
  · have hrun := hfail.append (runsTo_retried rfl rfl hwake (htime.trans_le hin))
    refine ⟨_, hrun.run, htime, fun _ => ⟨rfl, rfl, ?_⟩, fun hpast => ?_⟩
    · simp [retried, afterBackoff, attemptFails]
    · exact absurd (htime.trans_le hin) (Nat.not_le.mpr hpast)
  · have hpast := (Nat.not_le.mp hin).trans_eq htime.symm
    have hrun := hfail.append (runsTo_timedOut rfl rfl hwake hpast)
    exact ⟨_, hrun.run, htime, fun hle => absurd hle (Nat.not_le.mpr hpast), fun _ => ⟨rfl, rfl, rfl⟩⟩

/-! ### The ideal environment (43_poll.md R172) -/

/-- The state just before the `wake` of a round of the ideal environment. -/
def idealBackoff (s : State) : State := afterBackoff 0 s.block.pb.toNat (responsePins 0#4 0#64) s

theorem toNat_since_failure_idealBackoff (s : State) :
    ((idealBackoff s).now - (idealBackoff s).block.ts).toNat = s.block.pb.toNat :=
  toNat_since_failure 0 _ s (by omega)

theorem toNat_since_start_idealBackoff {s : State} (hin : (s.now - s.block.t0).toNat ≤ s.block.pt.toNat) :
    ((idealBackoff s).now - s.block.t0).toNat = (s.now - s.block.t0).toNat + s.block.pb.toNat :=
  toNat_since_start _ (by omega)

section
variable {s : State} (hr : s.rst = false) (hps : s.block.ps = .req) (hn : 1 ≤ s.block.pn.toNat)
include hr hps hn

theorem runsTo_idealBackoff :
    RunsTo (.pins (responsePins 0#4 0#64) :: List.replicate s.block.pb.toNat .tick) s (idealBackoff s) := by
  have hcount : (responsePins 0#4 0#64).rspCount ≠ s.block.pn := fun h0 => by simp [← h0, responsePins] at hn
  exact runsTo_afterBackoff 0 s.block.pb.toNat hr hps rfl rfl hcount

/-- A round of the ideal environment whose `wake` comes up to the deadline. -/
theorem runsTo_failedRound_retried (hin : (s.now - s.block.t0).toNat + s.block.pb.toNat ≤ s.block.pt.toNat) :
    RunsTo (failedRound s.block.pb.toNat) s (retried (idealBackoff s)) := by
  have htime := toNat_since_start_idealBackoff (s := s) (by omega)
  exact (runsTo_idealBackoff hr hps hn).append
    (runsTo_retried rfl rfl (toNat_since_failure_idealBackoff s).ge (htime.trans_le hin))

/-- A round of the ideal environment whose `wake` comes past the deadline. -/
theorem runsTo_failedRound_timedOut (hin : (s.now - s.block.t0).toNat ≤ s.block.pt.toNat)
    (hpast : s.block.pt.toNat < (s.now - s.block.t0).toNat + s.block.pb.toNat) :
    RunsTo (failedRound s.block.pb.toNat) s (timedOut (idealBackoff s)) := by
  have htime := toNat_since_start_idealBackoff hin
  exact (runsTo_idealBackoff hr hps hn).append
    (runsTo_timedOut rfl rfl (toNat_since_failure_idealBackoff s).ge (hpast.trans_eq htime.symm))

end

/-- A poll that times out in its round number `k + 1` from `s` on: the last `wake` comes `k + 1` backoff intervals after
`s`, and every round but the last makes one more request. -/
def timedOutAfter (k : Nat) (s : State) : State :=
  { s with
    now := s.now + BitVec.ofNat 32 ((k + 1) * s.block.pb.toNat),
    block := { s.block with
      ts := s.now + BitVec.ofNat 32 (k * s.block.pb.toNat), pto := true, ps := .idle },
    history := s.history ++ .response 0#4 0#64 ::
      (List.replicate k [TransportEvent.request s.block.addr s.block.pn, .response 0#4 0#64]).flatten }

theorem timedOut_idealBackoff {s : State} (hr : s.rst = false) : timedOut (idealBackoff s) = timedOutAfter 0 s := by
  simp [timedOut, idealBackoff, afterBackoff, attemptFails, timedOutAfter, responsePins, hr]

theorem timedOutAfter_retried {s : State} (hr : s.rst = false) (k : Nat) :
    timedOutAfter k (retried (idealBackoff s)) = timedOutAfter (k + 1) s := by
  have hadd (m : Nat) : s.now + BitVec.ofNat 32 s.block.pb.toNat + BitVec.ofNat 32 (m * s.block.pb.toNat) =
      s.now + BitVec.ofNat 32 ((m + 1) * s.block.pb.toNat) := by
    rw [BitVec.add_assoc, ← BitVec.ofNat_add, Nat.succ_mul, Nat.add_comm]
  simp [-BitVec.ofNat_toNat, timedOutAfter, retried, idealBackoff, afterBackoff, attemptFails, responsePins, hr, hadd,
    List.replicate_succ]

/-- From a request outstanding with `rst` released, `k + 1` rounds of the ideal environment end in the time-out, if the
deadline lies between the ends of the last two. -/
theorem runsTo_timedOutAfter {s : State} (k : Nat) (hr : s.rst = false) (hps : s.block.ps = .req)
    (hn : 1 ≤ s.block.pn.toNat)
    (hin : (s.now - s.block.t0).toNat + k * s.block.pb.toNat ≤ s.block.pt.toNat)
    (hpast : s.block.pt.toNat < (s.now - s.block.t0).toNat + (k + 1) * s.block.pb.toNat) :
    RunsTo (List.replicate (k + 1) (failedRound s.block.pb.toNat)).flatten s (timedOutAfter k s) := by
  induction k generalizing s with
  | zero =>
    have hround := runsTo_failedRound_timedOut hr hps hn (by omega) (by omega)
    simpa [← timedOut_idealBackoff hr] using hround
  | succ k ih =>
    have htime := toNat_since_start_idealBackoff (s := s) (by omega)
    rw [Nat.succ_mul] at hin hpast
    have hround := runsTo_failedRound_retried hr hps hn (by omega)
    have hrest := ih (s := retried (idealBackoff s)) rfl rfl hn
      (show ((idealBackoff s).now - s.block.t0).toNat + k * s.block.pb.toNat ≤ s.block.pt.toNat by omega)
      (show s.block.pt.toNat < ((idealBackoff s).now - s.block.t0).toNat + (k + 1) * s.block.pb.toNat by omega)
    rw [timedOutAfter_retried hr] at hrest
    rw [List.replicate_succ, List.flatten_cons]
    exact hround.append hrest

/-- The state after the accepted `POLL n, b, t` (43_poll.md R162). -/
def pollStarted (n : BitVec 4) (b : BitVec 3) (t : BitVec 16) (s : State) : State :=
  { s with
    rst := false, block := startPoll n b t s.now s.block, history := s.history ++ [.request s.block.addr n] }

theorem runsTo_pollStarted {s : State} {n : BitVec 4} {b : BitVec 3} {t : BitVec 16} (hidle : s.block.ps = .idle)
    (hw : (Instr.poll n b t).wellFormed = true) :
    RunsTo [.pins (commandPins (encode (.poll n b t)))] s (pollStarted n b t s) := .single fun rest => by
  rw [step_accept rest hidle rfl rfl]
  exact acceptWord_of_decode _ (decodeOfEncodeIsTheInstruction _ hw)

/-- Settles O30: the start, and then as many rounds as the deadline leaves room for. -/
theorem idealFailingPollTimesOut : Obligations.IdealFailingPollTimesOut := by
  unfold Obligations.IdealFailingPollTimesOut
  rintro s n b t hidle hw k events rfl rfl
  obtain ⟨⟨hn, -⟩, hb, -⟩ := (wellFormed_poll n b t).mp hw
  have hstart : ((pollStarted n b t s).now - (pollStarted n b t s).block.t0).toNat = 0 := by simp [pollStarted]
  have hrounds := runsTo_timedOutAfter (s := pollStarted n b t s) (t.toNat / b.toNat) rfl rfl hn
    (by rw [hstart, Nat.zero_add]; exact Nat.div_mul_le_self ..)
    (by rw [hstart, Nat.zero_add, Nat.mul_comm]; exact Nat.lt_mul_div_succ _ (Nat.zero_lt_of_lt hb))
  refine ⟨_, ((runsTo_pollStarted hidle hw).append hrounds).run, rfl, rfl, rfl, rfl, rfl, ?_⟩
  simp [timedOutAfter, pollStarted, List.replicate_succ]

end Sys2Proof.Machine
end

section
/-! The system commands (44_system.md): `NOP`, `CLRF` and `CFG.ADDR`, whose reserved bit 7 makes a word match no row of
the opcode map. -/

namespace Sys2Proof.Machine

theorem exec_nop (s : State) : exec .nop s = .next s := rfl

theorem exec_clrf (s : State) :
    exec .clrf s = .next { s with block := { s.block with pok := false, pto := false, crcerr := false } } := rfl

theorem exec_cfgAddr (imm7 : BitVec 7) (s : State) :
    exec (.cfgAddr imm7) s = .next { s with block := { s.block with addr := imm7 } } := rfl

/-- Settles O1: the word is the encoding of `NOP`. -/
theorem nopRunsAndChangesNothing : Obligations.NopRunsAndChangesNothing := by
  unfold Obligations.NopRunsAndChangesNothing
  exact ⟨decodeOfEncodeIsTheInstruction .nop rfl, exec_nop⟩

/-- Settles O2: the word is the encoding of `CLRF`. -/
theorem clrfClearsExactlyThreeFlags : Obligations.ClrfClearsExactlyThreeFlags := by
  unfold Obligations.ClrfClearsExactlyThreeFlags
  exact ⟨decodeOfEncodeIsTheInstruction .clrf rfl, exec_clrf⟩

/-! ### `CFG.ADDR` -/

/-- A word with fixed bits that no row of the opcode map agrees with is illegal (30_encoding.md R99). -/
theorem decode_error_of_disjoint_row {r' : OpcodeRow} {w : Word}
    (hdis : ∀ r ∈ opcodeMap, r.mask &&& r'.mask &&& (r.pattern ^^^ r'.pattern) ≠ 0#32)
    (h : rowSelects r' w = true) : ∃ e, decode w = .error e := by
  cases hd : decode w with
  | error e => exact ⟨e, rfl⟩
  | ok i =>
    obtain ⟨r, hr, hs, -, -⟩ := row_of_decode hd
    exact absurd (masked_eq_of_selects hs h) (hdis r hr)

/-- The fixed bits of a `CFG.ADDR` word with its reserved bit 7 set; no row of the opcode map. -/
def cfgAddrBit7Row : OpcodeRow := ⟨.cfgAddr, 0xFFFFFF80#32, 0x02000080#32⟩

/-- Every row of the opcode map fixes a bit that a `CFG.ADDR` word with bit 7 set has otherwise. -/
theorem cfgAddrBit7Row_disjoint : ∀ r ∈ opcodeMap,
    r.mask &&& cfgAddrBit7Row.mask &&& (r.pattern ^^^ cfgAddrBit7Row.pattern) ≠ 0#32 := by decide

/-- An address does not reach the bits above the operand field. -/
theorem setWidth_addr_masked (imm7 : BitVec 7) : imm7.setWidth 32 &&& 0xFFFFFF80#32 = 0#32 := by
  apply BitVec.eq_of_getLsbD_eq
  intro i hi
  interval_cases i <;> simp

theorem rowSelects_cfgAddrBit7Row (imm7 : BitVec 7) :
    rowSelects cfgAddrBit7Row (0x02000080#32 ||| imm7.setWidth 32) = true := by
  simp [rowSelects, cfgAddrBit7Row, BitVec.and_or_distrib_right, setWidth_addr_masked]

theorem acceptWord_cfgAddr_bit7 (s : State) (imm7 : BitVec 7) :
    acceptWord (0x02000080#32 ||| imm7.setWidth 32) s =
      .next { s with block := { s.block with cmderr := true } } := by
  obtain ⟨e, hd⟩ := decode_error_of_disjoint_row cfgAddrBit7Row_disjoint (rowSelects_cfgAddrBit7Row imm7)
  exact acceptWord_of_illegal s hd

/-- A legal `POLL` after `CFG.ADDR imm7` emits its request to the new address (44_system.md R192). -/
theorem runCommands_cfgAddr_poll (s : State) (imm7 : BitVec 7) {n : BitVec 4} {b : BitVec 3} {t : BitVec 16}
    (hw : (Instr.poll n b t).wellFormed = true) :
    ∃ u, runCommands [.cfgAddr imm7, .poll n b t] s = .next u ∧ u.history = s.history ++ [.request imm7 n] := by
  simp only [runCommands, exec_cfgAddr, exec_of_wellFormed _ hw]
  exact ⟨_, rfl, rfl⟩

/-- Settles O3: the word is the encoding of `CFG.ADDR imm7`, with bit 7 set it matches no row, and a `POLL` makes its
request for the address the block holds. -/
theorem cfgAddrWritesTheBusAddress : Obligations.CfgAddrWritesTheBusAddress := by
  unfold Obligations.CfgAddrWritesTheBusAddress
  exact ⟨fun imm7 => decodeOfEncodeIsTheInstruction (.cfgAddr imm7) rfl, acceptWord_cfgAddr_bit7,
    fun s imm7 => ⟨exec_cfgAddr imm7 s, fun _ _ _ hw => runCommands_cfgAddr_poll s imm7 hw⟩⟩

end Sys2Proof.Machine
end

section
/-! The host software at the block's boundary (48_host_sequences.md): what a call, an action and a bus write status do as
runs of one or two inputs, and the host sequences put together from them. -/

namespace Sys2Proof.Machine

/-! ### The classification -/

/-- Settles O53: the six bytes of the table, and every other byte fails the five tests one after another. -/
theorem classifyIsTheTable : Obligations.ClassifyIsTheTable := by
  unfold Obligations.ClassifyIsTheTable
  refine ⟨by decide, by decide, by decide, by decide, by decide, by decide, fun m hm => ?_⟩
  simp only [List.mem_cons, List.not_mem_nil, or_false, not_or] at hm
  obtain ⟨h00, hFF, h01, h0D, h14, h15⟩ := hm
  simp [classify, h00, hFF, h01, h0D, h14, h15]

/-! ### The DeviceSession -/

/-- A field after its assignment (R204), as one record: a populated field is kept, and after either outcome the field is
populated. -/
theorem populateSerialHigh_eq (v : Word) (x : Session) : populateSerialHigh v x =
    { x with
      serialHigh := if x.serialHighPopulated then x.serialHigh else v, serialHighPopulated := true } := by
  obtain ⟨_, populated, _, _, _, _, _⟩ := x
  cases populated <;> rfl

theorem populateSerialLow_eq (v : Word) (x : Session) : populateSerialLow v x =
    { x with serialLow := if x.serialLowPopulated then x.serialLow else v, serialLowPopulated := true } := by
  obtain ⟨_, _, _, populated, _, _, _⟩ := x
  cases populated <;> rfl

theorem populateModel_eq (m : ModelClass) (x : Session) : populateModel m x =
    { x with model := if x.modelPopulated then x.model else m, modelPopulated := true } := by
  obtain ⟨_, _, _, _, _, populated, _⟩ := x
  cases populated <;> rfl

section
variable (a : HostAction) (b : Block) (x : Session)

theorem sessionEffect_serialHigh :
    ((sessionEffect a b x).serialHigh = x.serialHigh ∧
      (sessionEffect a b x).serialHighPopulated = x.serialHighPopulated) ∨
    (a = .setSerialHigh ∧ x.serialHighPopulated = false ∧ (sessionEffect a b x).serialHighPopulated = true) := by
  cases a with
  | setSerialHigh => cases h : x.serialHighPopulated <;> simp [sessionEffect, h]
  | _ => simp [sessionEffect, populateSerialLow_eq, populateModel_eq]

theorem sessionEffect_serialLow :
    ((sessionEffect a b x).serialLow = x.serialLow ∧
      (sessionEffect a b x).serialLowPopulated = x.serialLowPopulated) ∨
    (a = .setSerialLow ∧ x.serialLowPopulated = false ∧ (sessionEffect a b x).serialLowPopulated = true) := by
  cases a with
  | setSerialLow => cases h : x.serialLowPopulated <;> simp [sessionEffect, h]
  | _ => simp [sessionEffect, populateSerialHigh_eq, populateModel_eq]

theorem sessionEffect_model :
    ((sessionEffect a b x).model = x.model ∧ (sessionEffect a b x).modelPopulated = x.modelPopulated) ∨
    (a = .classifyModel ∧ x.modelPopulated = false ∧ (sessionEffect a b x).modelPopulated = true) := by
  cases a with
  | classifyModel => cases h : x.modelPopulated <;> simp [sessionEffect, h]
  | _ => simp [sessionEffect, populateSerialHigh_eq, populateSerialLow_eq]

theorem sessionEffect_firmware :
    (sessionEffect a b x).firmware = x.firmware ∨ a = .setFirmware ∨ a = .clearFirmware := by
  cases a <;> simp [sessionEffect, populateSerialHigh_eq, populateSerialLow_eq, populateModel_eq]

end

/-- Settles O56: a step leaves the DeviceSession as it is or is the host's next action, and each field has its own
actions. -/
theorem identityFieldsChangeOnlyAtTheirActions : Obligations.IdentityFieldsChangeOnlyAtTheirActions := by
  unfold Obligations.IdentityFieldsChangeOnlyAtTheirActions
  intro s t h
  obtain hkept | ⟨a, rest, hcode, -, -, hx⟩ := step_session h
  · simp [hkept]
  · have hhead (a' : HostAction) : s.host.code.head? = some a' ↔ a = a' := by simp [hcode]
    simp only [hx, hhead]
    exact ⟨sessionEffect_serialHigh .., sessionEffect_serialLow .., sessionEffect_model ..,
      sessionEffect_firmware ..⟩

/-! The assignments, with the buffer's own bytes in the place of what the host reads of them (20_memory.md R68). -/

section
variable (b : Block) (x : Session)

theorem sessionEffect_setSerialHigh : sessionEffect .setSerialHigh b x =
    populateSerialHigh (Memory.read b.buf 0 ++ Memory.read b.buf 2 ++ Memory.read b.buf 4 ++ Memory.read b.buf 6) x := by
  simp [sessionEffect, hostBufByte_eq]

theorem sessionEffect_setSerialLow : sessionEffect .setSerialLow b x =
    populateSerialLow (Memory.read b.buf 0 ++ Memory.read b.buf 1 ++ Memory.read b.buf 3 ++ Memory.read b.buf 4) x := by
  simp [sessionEffect, hostBufByte_eq]

theorem sessionEffect_classifyModel : sessionEffect .classifyModel b x =
    populateModel (classify (x.serialLow.extractLsb' 24 8)) x := rfl

theorem sessionEffect_setFirmware : sessionEffect .setFirmware b x =
    { x with firmware := revisionOf (Memory.read b.buf 0) } := by
  simp [sessionEffect, hostBufByte_eq]

end

theorem hostStep_of_code {a : HostAction} {code : List HostAction} {s : State} (hps : s.block.ps = .idle)
    (hcode : s.host.code = a :: code) : hostStep s = hostAction a code s := by
  simp [hostStep, hcode, hps]

/-- Settles O60: each assignment writes the DeviceSession as the model's `populate` of its field does, on the buffer's
bytes. -/
theorem identityFieldsAreAssembledFromTheBuffer : Obligations.IdentityFieldsAreAssembledFromTheBuffer := by
  unfold Obligations.IdentityFieldsAreAssembledFromTheBuffer
  intro s rest hps
  refine ⟨fun hcode => ⟨_, hostStep_of_code hps hcode, rfl, fun hfresh => ?_, fun hpop => ?_⟩,
    fun hcode => ⟨_, hostStep_of_code hps hcode, rfl, fun hfresh => ?_, fun hpop => ?_⟩,
    fun hcode => ⟨_, hostStep_of_code hps hcode, rfl, fun hfresh => ?_, fun hpop => ?_⟩,
    fun hcode => ⟨_, hostStep_of_code hps hcode, rfl, ?_⟩⟩
  · exact (sessionEffect_setSerialHigh ..).trans (populateSerialHigh_of_fresh _ hfresh)
  · exact (sessionEffect_setSerialHigh ..).trans (populateSerialHigh_of_populated _ hpop)
  · exact (sessionEffect_setSerialLow ..).trans (populateSerialLow_of_fresh _ hfresh)
  · exact (sessionEffect_setSerialLow ..).trans (populateSerialLow_of_populated _ hpop)
  · exact (sessionEffect_classifyModel s.block _).trans (populateModel_of_fresh _ hfresh)
  · exact (sessionEffect_classifyModel s.block _).trans (populateModel_of_populated _ hpop)
  · simp +contextual [sessionEffect_setFirmware, revisionOf]

/-! ### The host's actions as runs -/

/-- A host action takes no input and gives none. -/
theorem hostAction_withInputs {a : HostAction} {code : List HostAction} {s t : State}
    (h : hostAction a code s = .next t) (rest : List Input) :
    hostAction a code { s with inputs := rest } = .next { t with inputs := rest } := by
  cases a with
  | blk i =>
    simp only [hostAction, acceptWord_eq, Host.Outcome.next.injEq] at h
    subst h
    simp [hostAction, acceptWord_eq, continueWith, onHost]
  | sleepFrom since ms =>
    simp only [hostAction, Host.Outcome.next.injEq] at h
    subst h
    simp only [hostAction]
    split <;> rfl
  | _ =>
    simp only [hostAction, Host.Outcome.next.injEq] at h
    subst h
    rfl

/-- A call while no sequence runs (R200). -/
theorem runsTo_call {s : State} (c : FacadeCall) (hcode : s.host.code = []) :
    RunsTo [.call c] s (continueWith (facadeCode c) s) := .single fun rest => by
  simp [step, applyInput, hostCall, hcode, continueWith, onHost]

/-- The status of a bus write that the host waits for. -/
theorem runsTo_writeStatus {s : State} {l : HostLabel} {code : List HostAction} (status : Nat)
    (hcode : s.host.code = .awaitStatus l :: code) :
    RunsTo [.writeStatus status] s (continueWith (if status = 0 then code else codeAfter l code) s) :=
  .single fun rest => by simp [step, applyInput, hostStatus, hcode, continueWith, onHost]

section
variable {es : List Input} {s t : State} {code : List HostAction} (h : RunsTo es s t) (hr : t.rst = false)
  (hps : t.block.ps = .idle)
include h hr hps

/-- The host's next action, taken with `rst` released and the block ready. -/
theorem RunsTo.host {a : HostAction} {u : State} (hcode : t.host.code = a :: code)
    (haction : hostAction a code t = .next u) : RunsTo (es ++ [Input.host]) s u := h.append <| .single fun rest => by
  calc step { t with inputs := .host :: rest }
    _ = unlessReset hostStep { t with inputs := rest } := rfl
    _ = hostStep { t with inputs := rest } := unlessReset_of_released hostStep hr
    _ = hostAction a code { t with inputs := rest } := hostStep_of_code hps hcode
    _ = .next { u with inputs := rest } := hostAction_withInputs haction rest

/-- A bus write that is not acknowledged: it is made, and the code goes on at the write's label (R201, R217). -/
theorem RunsTo.unacknowledged {bytes : List Byte} {l : HostLabel} {status : Nat}
    (hcode : t.host.code = .send bytes l :: code) (hstatus : status ≠ 0) :
    RunsTo (es ++ [Input.host] ++ [Input.writeStatus status]) s { t with host := { t.host with
      code := codeAfter l code, writes := t.host.writes ++ [⟨t.block.addr, bytes, Config.sendStop⟩] } } := by
  have hstatusRun := (h.host hr hps hcode rfl).append (runsTo_writeStatus status rfl)
  rwa [if_neg hstatus] at hstatusRun

/-- A command that the host presents: the ready block executes it. -/
theorem RunsTo.blk {i : Instr} (hcode : t.host.code = .blk i :: code) (hw : i.wellFormed = true) :
    RunsTo (es ++ [Input.host]) s { t with
      block := commandEffect i t.now t.block, history := t.history ++ commandEmits i t.block,
      host := { t.host with code := code } } :=
  h.host hr hps hcode (acceptWord_of_decode _ (decodeOfEncodeIsTheInstruction i hw))

/-- An action that goes on at a label where the sequence returns, and the return: of the host only its code and its result
change. -/
theorem RunsTo.jump_ret {a : HostAction} {l : HostLabel} {r : HostReturn} (hcode : t.host.code = a :: code)
    (hjump : hostAction a code t = .next (continueWith (codeAfter l code) t)) (hlabel : codeAfter l code = [.ret r]) :
    RunsTo (es ++ [Input.host] ++ [Input.host]) s { t with host := { t.host with
      code := [], result := hostReturn r t.block t.host.session } } :=
  (h.host hr hps hcode hjump).host hr hps hlabel rfl

end

/-! ### Measurements -/

/-- The decode command of a quantity and the quantity's formula (R209, R210). -/
def DecodesBy (dec : Instr) (formula : Half → Word) : Prop :=
  (dec = .decRh ∧ formula = decodeHumidity) ∨ (dec = .decT ∧ formula = decodeTemperature)

theorem DecodesBy.command {dec : Instr} {formula : Half → Word} (h : DecodesBy dec formula) :
    dec.wellFormed = true ∧
    ∀ (now : Word) (b : Block),
      commandEffect dec now b = { b with result := decodedOr formula b } ∧ commandEmits dec b = [] := by
  obtain ⟨rfl, rfl⟩ | ⟨rfl, rfl⟩ := h <;> exact ⟨rfl, fun _ _ => ⟨rfl, rfl⟩⟩

/-- What every path of a measurement ends with: the sample is decoded and `RESULT` is returned. -/
theorem RunsTo.reading {es : List Input} {s t : State} {dec : Instr} {formula : Half → Word} (h : RunsTo es s t)
    (hr : t.rst = false) (hps : t.block.ps = .idle) (hdec : DecodesBy dec formula)
    (hcode : t.host.code = [.blk dec, .ret .reading]) :
    RunsTo (es ++ [Input.host] ++ [Input.host]) s { t with
      block := { t.block with result := decodedOr formula t.block },
      host := { t.host with code := [], result := .reading (decodedOr formula t.block) } } := by
  obtain ⟨hw, heffect⟩ := hdec.command
  have hblk := h.blk hr hps hcode hw
  rw [(heffect t.now t.block).1, (heffect t.now t.block).2, List.append_nil] at hblk
  exact hblk.host hr hps rfl rfl

/-- A measurement whose triggering write is not acknowledged: no sample is loaded, and the invalid one decodes to the
sentinel (R217). -/
theorem runsTo_unacknowledged_measurement {s : State} {c : FacadeCall} {sensorCommand : Byte} {dec : Instr}
    {formula : Half → Word} {status : Nat} (hdec : DecodesBy dec formula)
    (hc : facadeCode c = measureCode sensorCommand dec) (hr : s.rst = false) (hps : s.block.ps = .idle)
    (hcode : s.host.code = []) (hstatus : status ≠ 0) :
    RunsTo [.call c, .host, .writeStatus status, .host, .host, .host, .host] s { s with
      block := { s.block with rawv := false, result := Config.nanBits },
      host := { s.host with
        code := [], result := .reading Config.nanBits,
        writes := s.host.writes ++ [⟨s.block.addr, [sensorCommand], Config.sendStop⟩] } } := by
  have hcall := runsTo_call c hcode
  rw [hc] at hcall
  have hnak := hcall.unacknowledged hr hps rfl hstatus
  have hinvalid := hnak.blk hr hps (i := .smpInv) rfl rfl
  have hdecode := (hinvalid.host hr hps rfl rfl).reading hr hps hdec rfl
  rw [decodedOr_of_invalid formula rfl] at hdecode
  simpa [commandEffect, commandEmits] using hdecode

/-- Settles O54: both quantities are measured by the one sequence, and the sentinel is the constant `NAN_BITS`. -/
theorem unacknowledgedMeasurementIsTheSentinel : Obligations.UnacknowledgedMeasurementIsTheSentinel := by
  unfold Obligations.UnacknowledgedMeasurementIsTheSentinel
  rintro s c status (rfl | rfl) hr hps hcode hstatus
  · have hrun := runsTo_unacknowledged_measurement (c := .readHumidity) (.inl ⟨rfl, rfl⟩) rfl hr hps hcode hstatus
    exact ⟨_, hrun.run, rfl, rfl, rfl, rfl⟩
  · have hrun := runsTo_unacknowledged_measurement (c := .readTemperature) (.inr ⟨rfl, rfl⟩) rfl hr hps hcode hstatus
    exact ⟨_, hrun.run, rfl, rfl, rfl, rfl⟩

/-- The block after `CRC.VFY 0, 2` and `SMP.LD 0` with no verification failed before. -/
def verifiedSample (b : Block) : Block :=
  { b with
    crc := crc8Compute (dataBytes b 0#4 2#4), crcerr := !groupVerifies b 0#4 2#4, raw := sampleAt b 0#4,
    rawv := groupVerifies b 0#4 2#4 }

/-- The check and the load leave the sample valid exactly if its group verifies: a group that verifies was received whole,
the sample's bytes among it. -/
theorem commandEffect_verify_load {b : Block} (now : Word) (hcrc : b.crcerr = false) :
    commandEffect (.smpLd 0#4) now (commandEffect (.crcVfy 0#4 2#4) now b) = verifiedSample b := by
  have hvalid : loadedValid (commandEffect (.crcVfy 0#4 2#4) now b) 0#4 = groupVerifies b 0#4 2#4 := by
    rw [Bool.eq_iff_iff, loadedValid_iff]
    constructor
    · rintro ⟨-, hgood⟩
      simpa [commandEffect, hcrc] using hgood
    · intro hok
      have hcount := ((groupVerifies_iff b 0#4 2#4).mp hok).1
      simpa [commandEffect, hok, hcrc] using Nat.le_of_succ_le hcount
  calc commandEffect (.smpLd 0#4) now (commandEffect (.crcVfy 0#4 2#4) now b)
    _ = { commandEffect (.crcVfy 0#4 2#4) now b with
          raw := sampleAt (commandEffect (.crcVfy 0#4 2#4) now b) 0#4, rawv := groupVerifies b 0#4 2#4 } := by
      rw [← hvalid]; rfl
    _ = verifiedSample b := by simp [commandEffect, verifiedSample, hcrc, sampleAt]

/-- Settles O55: the sample that is decoded is valid exactly if its group verifies. -/
theorem measurementReturnsTheDecodedSample : Obligations.MeasurementReturnsTheDecodedSample := by
  unfold Obligations.MeasurementReturnsTheDecodedSample
  intro s sensorCommand dec formula hdec hr hps hcrc hcode
  have hverify := (RunsTo.nil s).blk hr hps hcode rfl
  have hload := hverify.blk hr (by simp [commandEffect, hps]) rfl rfl
  rw [commandEffect_verify_load s.now hcrc] at hload
  have hend := (hload.host hr hps rfl rfl).reading hr hps hdec rfl
  refine ⟨_, hend.run, rfl, fun hok => ?_, fun hbad => ?_⟩
  · have hgroup := (groupVerifies_iff s.block 0#4 2#4).mpr hok
    exact congrArg HostResult.reading (decodedOr_of_valid formula (b := verifiedSample s.block) hgroup)
  · have hgroup := Bool.eq_false_iff.mpr (mt (groupVerifies_iff s.block 0#4 2#4).mp hbad)
    exact congrArg HostResult.reading (decodedOr_of_invalid formula (b := verifiedSample s.block) hgroup)

/-! ### Identification -/

/-- `host.sleep(ms)` from its beginning on, `ms` milliseconds in all (R203). -/
theorem RunsTo.slept {es : List Input} {s t : State} {ms : Word} {code : List HostAction} (h : RunsTo es s t)
    (hr : t.rst = false) (hps : t.block.ps = .idle) (hcode : t.host.code = .sleep ms :: code) :
    RunsTo (es ++ [Input.host] ++ List.replicate ms.toNat Input.tick ++ [Input.host]) s
      { t with now := t.now + ms, host := { t.host with code := code } } := by
  have hasleep := h.host hr hps hcode rfl
  have hticks := hasleep.append (runsTo_ticks (s := continueWith (.sleepFrom t.now ms :: code) t) hr ms.toNat)
  rw [BitVec.ofNat_toNat, BitVec.setWidth_eq] at hticks
  have hdue : ms.toNat ≤ (elapsed (t.now + ms) t.now).toNat := by simp [elapsed]
  exact hticks.host hr hps rfl (congrArg Host.Outcome.next (if_pos hdue))

/-! A test that fails goes on at its label. -/

section
variable {s : State} (l : HostLabel) (code : List HostAction)

theorem hostAction_needPok_of_failed (h : s.block.pok = false) :
    hostAction (.needPok l) code s = .next (continueWith (codeAfter l code) s) := by
  simp [hostAction, hostPok_eq, h]

theorem hostAction_needGoodCrc_of_failed (h : s.block.crcerr = true) :
    hostAction (.needGoodCrc l) code s = .next (continueWith (codeAfter l code) s) := by
  simp [hostAction, hostCrcerr_eq, h]

theorem hostAction_needUserRegister_of_failed {v : Byte} (h : Memory.read s.block.buf 0 ≠ v) :
    hostAction (.needUserRegister v l) code s = .next (continueWith (codeAfter l code) s) := by
  simp [hostAction, hostBufByte_eq, h]

end

/-- The facade's initialisation when its reset write is not acknowledged (R207, R208). -/
theorem runsTo_unacknowledged_initialise {s : State} {status : Nat} (hr : s.rst = false) (hps : s.block.ps = .idle)
    (hcode : s.host.code = []) (hstatus : status ≠ 0) :
    RunsTo ([Input.call .initialise, .host, .writeStatus status, .host] ++ List.replicate 50 Input.tick ++
        [Input.host, .host, .host])
      s { s with
        now := s.now + 50#32,
        host := { s.host with
          code := [], result := .bool false,
          writes := s.host.writes ++ [⟨s.block.addr, [0xFE#8], Config.sendStop⟩] } } := by
  have hnak := (runsTo_call .initialise hcode).unacknowledged hr hps rfl hstatus
  have hslept := hnak.slept hr hps (ms := 50#32) rfl
  exact hslept.jump_ret hr hps (l := .failed) rfl rfl rfl

/-- Settles O58: both failures go on at the label where false is returned. -/
theorem initializeReportsAMissingSensor : Obligations.InitializeReportsAMissingSensor := by
  unfold Obligations.InitializeReportsAMissingSensor
  constructor
  · rintro s status hr hps hcode hstatus events rfl
    exact ⟨_, (runsTo_unacknowledged_initialise hr hps hcode hstatus).run, rfl, rfl, rfl, rfl, rfl⟩
  · intro s hr hps hcode hvalue
    have hend := (RunsTo.nil s).jump_ret hr hps hcode (hostAction_needUserRegister_of_failed .failed _ hvalue) rfl
    exact ⟨_, hend.run, rfl, rfl, rfl⟩

/-- An action of `resolve()` that goes on at the label where it returns (R214). -/
theorem resolve_returns {s : State} {a : HostAction} {code : List HostAction} (hr : s.rst = false)
    (hps : s.block.ps = .idle) (hcode : s.host.code = a :: code)
    (hjump : hostAction a code s = .next (continueWith (codeAfter .resolved code) s))
    (hlabel : codeAfter .resolved code = [.ret .done]) :
    ∃ t, runSteps 2 { s with inputs := [.host, .host] } = .next t ∧
      t.host.result = .done ∧ t.host.code = [] ∧ t.host.session = s.host.session ∧ t.block = s.block :=
  ⟨_, ((RunsTo.nil s).jump_ret hr hps hcode hjump hlabel).run, rfl, rfl, rfl, rfl⟩

/-- Settles O59: each of the four tests fails to the label where `resolve()` returns. -/
theorem resolverReturnsEarly : Obligations.ResolverReturnsEarly := by
  unfold Obligations.ResolverReturnsEarly
  rintro s k hr hps hcode (⟨rfl | rfl, hpok⟩ | ⟨rfl | rfl, hcrc⟩)
  · exact resolve_returns hr hps hcode (hostAction_needPok_of_failed .resolved _ hpok) rfl
  · exact resolve_returns hr hps hcode (hostAction_needPok_of_failed .resolved _ hpok) rfl
  · exact resolve_returns hr hps hcode (hostAction_needGoodCrc_of_failed .resolved _ hcrc) rfl
  · exact resolve_returns hr hps hcode (hostAction_needGoodCrc_of_failed .resolved _ hcrc) rfl

end Sys2Proof.Machine
end

section
/-! Reset and hazards (70_reset_and_hazards.md): what an instant that asserts `rst` does and what a held `rst` lets
through (R260), a word at a busy block (R264), and the host software's bus writes (R268). -/

namespace Sys2Proof.Machine

/-- An instant of the pins sets the level of `rst` and performs its one event. -/
theorem step_pins (s : State) (p : Pins) (rest : List Input) :
    step { s with inputs := .pins p :: rest } =
      applyEvent (pinsEvent p s.block) { s with inputs := rest, rst := p.rst } := rfl

/-! ### A busy block -/

/-- With `rst` low and no response presented, an instant of the pins at a busy block is a read, whatever word it
presents. -/
theorem pinsEvent_busy {p : Pins} {b : Block} (hps : b.ps ≠ .idle) (hrst : p.rst = false)
    (hrsp : p.rspValid = false) : pinsEvent p b = .read p.rdSel := by
  have hready : ¬cmdReady b = true := mt (cmdReady_iff b).mp hps
  simp [pinsEvent, hrst, hrsp, hready]

/-- Settles O33: the word is not accepted, the instant is a read. -/
theorem busyBlockTakesNoWord : Obligations.BusyBlockTakesNoWord := by
  unfold Obligations.BusyBlockTakesNoWord
  refine fun s p rest => ⟨cmdReady_iff s.block, fun hps hrst hrsp => ?_⟩
  rw [step_pins, pinsEvent_busy hps hrst hrsp, hrst]
  rfl

/-! ### Reset -/

/-- Reset wins over every other pin (60_exceptions.md R237). -/
theorem pinsEvent_reset {p : Pins} (b : Block) (hrst : p.rst = true) : pinsEvent p b = .reset := by
  simp [pinsEvent, hrst]

/-- The instant that asserts `rst`, or keeps it asserted. -/
theorem step_reset (s : State) {p : Pins} (rest : List Input) (hrst : p.rst = true) :
    step { s with inputs := .pins p :: rest } = .next { s with inputs := rest, rst := true, block := Block.reset } := by
  rw [step_pins, pinsEvent_reset s.block hrst, hrst]
  rfl

/-- A call changes of the host software its code alone. -/
theorem hostCall_eq (c : FacadeCall) (s : State) : ∃ code, hostCall c s = continueWith code s := by
  unfold hostCall
  split
  · exact ⟨_, rfl⟩
  · exact ⟨s.host.code, rfl⟩

/-- A bus write status changes of the host software its code alone. -/
theorem hostStatus_eq (status : Nat) (s : State) : ∃ code, hostStatus status s = continueWith code s := by
  unfold hostStatus
  split
  · exact ⟨_, rfl⟩
  · exact ⟨s.host.code, rfl⟩

/-- Under a held `rst` any input but an instant of the pins is taken from the list and changes at most the host
software's code: a call may begin, a bus write's status may arrive. -/
theorem step_of_heldReset {s : State} {i : Input} (rest : List Input) (hr : s.rst = true) (hp : ∀ p, i ≠ .pins p) :
    ∃ code, step { s with inputs := i :: rest } = .next (continueWith code { s with inputs := rest }) := by
  cases i with
  | pins p => exact absurd rfl (hp p)
  | wake | tick | host => exact ⟨s.host.code, unlessReset_of_asserted (s := { s with inputs := rest }) _ hr⟩
  | call c => exact (hostCall_eq c _).imp fun _ h => congrArg Host.Outcome.next h
  | writeStatus status => exact (hostStatus_eq status _).imp fun _ h => congrArg Host.Outcome.next h

/-- Settles O35: the instant leaves the block at `Block.reset`, and under a held `rst` only the host's code can change. -/
theorem resetSetsEveryElement : Obligations.ResetSetsEveryElement := by
  unfold Obligations.ResetSetsEveryElement
  constructor
  · intro s p rest hrst
    exact ⟨_, step_reset s rest hrst, rfl, fun _ => rfl, rfl⟩
  · intro s i rest hr hp
    obtain ⟨code, hstep⟩ := step_of_heldReset rest hr hp
    have hnone : nextEvent { s with inputs := i :: rest } = none :=
      no_event_of_asserted hr fun p _ hin => hp p (List.cons.inj hin).1
    exact ⟨hnone, _, hstep, hr, rfl, rfl, rfl, rfl⟩

/-! ### Bus writes -/

theorem applyEvent_host {e : Event} {s t : State} (h : applyEvent e s = .next t) : t.host = s.host := by
  rw [applyEvent_eq, Host.Outcome.next.injEq] at h
  subst h; rfl

theorem unlessReset_cases {f : State → Outcome} {s t : State} (h : unlessReset f s = .next t) :
    t = s ∨ s.rst = false ∧ f s = .next t := by
  cases hr : s.rst with
  | true => rw [unlessReset_of_asserted f hr] at h; cases h; exact .inl rfl
  | false => rw [unlessReset_of_released f hr] at h; exact .inr ⟨rfl, h⟩

theorem unlessReset_applyEvent_host {e : Event} {s t : State} (h : unlessReset (applyEvent e) s = .next t) :
    t.host = s.host := by
  obtain rfl | ⟨-, hevent⟩ := unlessReset_cases h
  · rfl
  · exact applyEvent_host hevent

/-- The host software acts only while the block is ready. -/
theorem hostStep_cases {s t : State} (h : hostStep s = .next t) :
    t = s ∨ ∃ a code, s.host.code = a :: code ∧ s.block.ps = .idle ∧ hostAction a code s = .next t := by
  unfold hostStep at h
  split at h
  · cases h; exact .inl rfl
  · next a code hcode =>
    split at h
    · next hready => exact .inr ⟨a, code, hcode, (cmdReady_iff _).mp hready, h⟩
    · cases h; exact .inl rfl

/-- Only the action `send` makes a bus write, one and to `ADDR` (R201). -/
theorem hostAction_writes {a : HostAction} {code : List HostAction} {s t : State}
    (h : hostAction a code s = .next t) :
    t.host.writes = s.host.writes ∨
    ∃ bytes l, a = .send bytes l ∧ t.host.writes = s.host.writes ++ [⟨s.block.addr, bytes, Config.sendStop⟩] := by
  cases a with
  | send bytes l => cases h; exact .inr ⟨bytes, l, rfl, rfl⟩
  | blk i => exact .inl (by rw [(acceptWord_frame h).1]; rfl)
  | sleepFrom since ms =>
    simp only [hostAction, Host.Outcome.next.injEq] at h
    subst h
    split <;> exact .inl rfl
  | _ => cases h; exact .inl rfl

/-- A step leaves the bus writes as they are, or it is the host software's next action, taken by a ready block with `rst`
released. -/
theorem step_writes {s t : State} (h : step s = .next t) :
    t.host.writes = s.host.writes ∨
    ∃ a code rest, s.host.code = a :: code ∧ s.block.ps = .idle ∧ s.rst = false ∧
      hostAction a code { s with inputs := rest } = .next t := by
  unfold step at h
  split at h
  · cases h; exact .inl rfl
  · next i rest _ =>
    cases i with
    | pins p => exact .inl (by rw [applyEvent_host h])
    | wake | tick => exact .inl (by rw [unlessReset_applyEvent_host h])
    | call c =>
      obtain ⟨code, hcall⟩ := hostCall_eq c { s with inputs := rest }
      simp only [applyInput, hcall, Host.Outcome.next.injEq] at h
      subst h; exact .inl rfl
    | writeStatus status =>
      obtain ⟨code, hstatus⟩ := hostStatus_eq status { s with inputs := rest }
      simp only [applyInput, hstatus, Host.Outcome.next.injEq] at h
      subst h; exact .inl rfl
    | host =>
      obtain rfl | ⟨hr, hhost⟩ := unlessReset_cases h
      · exact .inl rfl
      · obtain rfl | ⟨a, code, hcode, hps, haction⟩ := hostStep_cases hhost
        · exact .inl rfl
        · exact .inr ⟨a, code, rest, hcode, hps, hr, haction⟩

/-- Settles O57: the one input that can write is the host's action, and of the actions only `send` writes. -/
theorem hostWritesOnlyWhileNoPollRuns : Obligations.HostWritesOnlyWhileNoPollRuns := by
  unfold Obligations.HostWritesOnlyWhileNoPollRuns
  intro s t hstep
  obtain hsame | ⟨a, code, rest, hcode, hps, hr, haction⟩ := step_writes hstep
  · exact .inl hsame
  · obtain hsame | ⟨bytes, l, rfl, hwrites⟩ := hostAction_writes haction
    · exact .inl hsame
    · exact .inr ⟨bytes, hwrites, hps, hr, l, by rw [hcode, List.head?_cons]⟩

end Sys2Proof.Machine
end

section
/-! The step of the CRC accumulator as a command word (41_crc.md R124), and the worked encodings of 30_encoding.md
section 3. Each word is the encoding of a well-formed instruction, which decoding gives back. -/

namespace Sys2Proof.Machine

/-- Settles O5: the word is the encoding of `CRC.BYTE imm8`, whose operand has no illegal value. -/
theorem crcByteStepsTheAccumulator : Obligations.CrcByteStepsTheAccumulator := by
  unfold Obligations.CrcByteStepsTheAccumulator
  exact fun s imm8 => ⟨decodeOfEncodeIsTheInstruction (.crcByte imm8) rfl, exec_crcByte imm8 s⟩

/-- A word known to be the encoding of an instruction with its operands in range decodes to that instruction. -/
theorem decode_of_encode_eq {w : Word} {i : Instr} (hw : i.wellFormed = true) (henc : encode i = w) :
    decode w = .ok i :=
  henc ▸ decodeOfEncodeIsTheInstruction i hw

/-- Settles O52: each printed word is the encoding of its command. -/
theorem workedEncodingsDecode : Obligations.WorkedEncodingsDecode := by
  unfold Obligations.WorkedEncodingsDecode
  refine ⟨?cfgAddr, ?crcByte, ?crcVfy, ?smpSet, ?smpLd, ?poll⟩
  case cfgAddr | crcByte | crcVfy | smpSet | smpLd | poll => exact decode_of_encode_eq (by decide) (by decide)

end Sys2Proof.Machine
end
